-- ==== Sys2Proof/Word.lean ====
section
/-! DEFINITION. The words of the block: bytes, 32-bit registers, pixels (spec 00_scope.md R14, 42_pixel_model.md R130). -/

namespace Sys2Proof

/-- A byte, unsigned 0 to 255 (R14). -/
abbrev Byte := BitVec 8

/-- A 32-bit register value (R29). -/
abbrev Word := BitVec 32

/-- A pixel: its channel bytes in index order, 3 of them for RGB and 4 for RGBA (R130, R78).
The length is checked by `Pixel.wf`. -/
abbrev Pixel := List Byte

end Sys2Proof
end

