-- ==== Sys2Proof/Config.lean ====
section
/-! DEFINITION. The parameters of an implementation (spec 00_scope.md R9) and the free values of the model. -/

namespace Sys2Proof

/-- Which row length the output padding is computed from (R9, R146, R147). -/
inductive PadRule where
  | outputDepth
  | sourceDepth
  deriving DecidableEq, Repr

/-- How the Paeth predictor widens its operands (R9, R114). -/
inductive PaethWiden where
  | zext
  | sext8
  deriving DecidableEq, Repr

/-- The four memory spaces (R50). -/
inductive Space where
  | input
  | ft
  | raster
  | out
  deriving DecidableEq, Repr

/-- The implementation parameters of R9. They are arguments of the model (R47): `State` carries
them, and no step changes them (log 8). A capacity `none` is an unbounded one. -/
structure Params where
  ftCapacity     : Option Nat
  rasterCapacity : Option Nat
  padRule        : PadRule
  paethWiden     : PaethWiden
  deriving DecidableEq, Repr

namespace Config

/-- The parameter values R9 names: capacities open, taken as unbounded; `OUTPUT_DEPTH`; `ZEXT`. -/
def specParams : Params :=
  { ftCapacity := none, rasterCapacity := none, padRule := .outputDepth, paethWiden := .zext }

/-- FREE VALUE (log 2): what byte `addr` of a space holds before anything is written to it since the
`epoch`-th RESET. R48 leaves those contents unspecified and U6 says any value; nothing constrains it. -/
opaque freeByte : (epoch : Nat) → (space : Space) → (addr : Nat) → Byte

/-- FREE VALUE (log 3): what the sixteen lanes of X, A, B and C hold after the `epoch`-th RESET
(R48: unspecified). -/
opaque freeLane : (epoch : Nat) → (lane : Nat) → Byte

end Config

end Sys2Proof
end

