-- ==== Sys2Proof/Syntax.lean ====
section
/-! DEFINITION. The syntax: the geometry of a run, the instructions (scanline records), and the host's operations. -/

namespace Sys2Proof

/-- The colour model of CFG_COLOR (R33). -/
inductive ColorType where
  | rgb
  | rgba
  deriving DecidableEq, Repr

/-- `CH`, and `BPP`, of R8: 3 for RGB, 4 for RGBA. -/
def ColorType.channels : ColorType → Nat
  | .rgb => 3
  | .rgba => 4

/-- The geometry of a run: `W`, `H` and the colour model, as the mathematical quantities of R7 and R8. -/
structure Geometry where
  width  : Nat
  height : Nat
  color  : ColorType
  deriving DecidableEq, Repr

/-- `BPP` of R8. -/
def Geometry.bpp (g : Geometry) : Nat := g.color.channels

/-- The instructions: one scanline record each (R18, R76), the opcode being the constructor (R81) and
the operands the record's encoded pixels, column 0 first. -/
inductive Instr where
  /-- NONE, opcode 0x00 (R109). -/
  | none (pix : List Pixel)
  /-- SUB, opcode 0x01 (R110). -/
  | sub (pix : List Pixel)
  /-- UP, opcode 0x02 (R111). -/
  | up (pix : List Pixel)
  /-- AVERAGE, opcode 0x03 (R112). -/
  | average (pix : List Pixel)
  /-- PAETH, opcode 0x04 (R113). -/
  | paeth (pix : List Pixel)
  deriving DecidableEq, Repr

/-- The pixel operands of a record. -/
def Instr.pixels : Instr → List Pixel
  | .none pix => pix
  | .sub pix => pix
  | .up pix => pix
  | .average pix => pix
  | .paeth pix => pix

/-- The fourteen registers of the register map (R29). -/
inductive Reg where
  | cfgWidth
  | cfgHeight
  | cfgColor
  | inLen
  | ctrl
  | status
  | faultCode
  | faultValue
  | faultExpected
  | faultActual
  | posY
  | posX
  | inPos
  | outLen
  deriving DecidableEq, Repr

/-- What the host does to the block (R177, R187), as the model queues it in `State` (log 7). -/
inductive HostOp where
  /-- A write of a whole 32-bit value to a register (R29). -/
  | write (r : Reg) (v : Word)
  /-- The decompressed bytes placed in IN from address 0 on (R187, step 3). -/
  | place (bytes : List Byte)
  /-- The host does nothing for one step of the sequencer (R11). -/
  | wait
  deriving DecidableEq, Repr

end Sys2Proof
end

