-- ==== Sys2Proof/WellFormed.lean ====
section
/-! DEFINITION. Which instructions are well formed under a geometry (spec 30_encoding.md R76 to R78). -/

namespace Sys2Proof

/-- A pixel holds one byte per channel of the colour model (R78, R130). -/
def Pixel.wf (c : ColorType) (p : Pixel) : Bool := p.length == c.channels

/-- A record holds exactly `W` pixels (R76). -/
def Instr.countWf (g : Geometry) (i : Instr) : Bool := i.pixels.length == g.width

/-- Every pixel of a record has `BPP` bytes (R78). -/
def Instr.pixelsWf (g : Geometry) (i : Instr) : Bool := i.pixels.all (Pixel.wf g.color)

/-- The checks a record of a run with geometry `g` meets. -/
def Instr.wf (g : Geometry) (i : Instr) : Bool := i.countWf g && i.pixelsWf g

/-- `Instr.wf` as a proposition. -/
abbrev WellFormed (g : Geometry) (i : Instr) : Prop := i.wf g = true

end Sys2Proof
end

