-- ==== Sys2Proof/Decode.lean ====
section
/-! DEFINITION. The decoder of scanline records, total on any bytes, and after it the encoder (spec 30_encoding.md). -/

namespace Sys2Proof

/-- `REC_LEN` of R8 and R77: the opcode byte and `W` pixels. -/
def Geometry.recLen (g : Geometry) : Nat := 1 + g.width * g.bpp

/-- `EXPECTED_LEN` of R8: `H` records. -/
def Geometry.expectedLen (g : Geometry) : Nat := g.height * g.recLen

/-- `n` pixels of `bpp` bytes each, in address order (R76). -/
def splitPixels (bpp : Nat) : Nat → List Byte → List Pixel
  | 0, _ => []
  | n + 1, bs => bs.take bpp :: splitPixels bpp n (bs.drop bpp)

/-- Why bytes are no instruction. -/
inductive DecodeError where
  /-- Fewer than `REC_LEN` bytes (R97). -/
  | truncated
  /-- The filter-type byte is none of 0 to 4 (R82). -/
  | unsupportedFilterType (ft : Byte)
  deriving DecidableEq, Repr

/-- The opcode map of R81. The whole byte is compared (R80); 0x05 to 0xFF are illegal (R82). -/
def decodeRecord (ft : Byte) (pix : List Pixel) : Option Instr :=
  if ft = 0x00#8 then some (.none pix)
  else if ft = 0x01#8 then some (.sub pix)
  else if ft = 0x02#8 then some (.up pix)
  else if ft = 0x03#8 then some (.average pix)
  else if ft = 0x04#8 then some (.paeth pix)
  else Option.none

/-- One record from the front of a byte sequence, with the bytes after it (R75 to R79). The length
is `REC_LEN` whatever the opcode (R77). -/
def decode (g : Geometry) (bytes : List Byte) : Except DecodeError (Instr × List Byte) :=
  match bytes with
  | [] => .error .truncated
  | ft :: rest =>
    if rest.length < g.width * g.bpp then .error .truncated
    else
      match decodeRecord ft (splitPixels g.bpp g.width rest) with
      | some i => .ok (i, rest.drop (g.width * g.bpp))
      | Option.none => .error (.unsupportedFilterType ft)

/-- The filter-type byte of an instruction (R81). -/
def opcodeByte : Instr → Byte
  | .none _ => 0x00#8
  | .sub _ => 0x01#8
  | .up _ => 0x02#8
  | .average _ => 0x03#8
  | .paeth _ => 0x04#8

/-- The bytes of a record: the opcode, then the pixels, column 0 and channel 0 first (R76, R78). -/
def encode (i : Instr) : List Byte := opcodeByte i :: i.pixels.flatten

/-- The geometry under which a row of spec/opcode_table.json, which fixes the opcode byte alone, is
read as a whole record: one RGB pixel (log 12). -/
def tableGeometry : Geometry := { width := 1, height := 1, color := .rgb }

/-- The bytes of a table word: byte `j` is bits `8j+7 .. 8j`, and the bits above `nbits` are 0. -/
def tableBytes (nbits w : Nat) : List Byte :=
  (List.range tableGeometry.recLen).map fun j => BitVec.ofNat 8 ((w % 2 ^ nbits) / 2 ^ (8 * j))

/-- The instruction the decoder reads from a table word. -/
def decodeTableWord (nbits w : Nat) : Option Instr :=
  match decode tableGeometry (tableBytes nbits w) with
  | .ok (i, _) => some i
  | .error _ => Option.none

end Sys2Proof
end

