-- ==== Sys2Proof/Machine/State.lean ====
section
/-! DEFINITION. The state of the block (spec 10_state.md), the reasons a step stops, and the state after reset. -/

namespace Sys2Proof.Machine

/-- An operand register: four lanes of 8 bits (R21). Under RGB no rule reads or writes lane 3. -/
structure OperandReg where
  lane0 : Byte
  lane1 : Byte
  lane2 : Byte
  lane3 : Byte
  deriving DecidableEq, Repr

/-- The values of PHASE (R23). -/
inductive Phase where
  | idle
  | load
  | recon
  | emit
  | done
  | fault
  deriving DecidableEq, Repr

/-- A memory space: its written bytes as (address, byte) pairs, addresses strictly rising
(`Memory.wf`). An address not listed has not been written and reads as a free value (log 2). -/
structure Memory where
  cells : List Host.Cell
  deriving DecidableEq, Repr

/-- Nothing written. -/
def Memory.empty : Memory := { cells := [] }

/-- Why the machine has no step. None of these is one of the spec's two faults: those are entered by
`raise`, which gives a NEXT state with PHASE = FAULT (R169). All of them are safe: the model stops
where the block does nothing. -/
inductive Fault where
  /-- Raised by the sequencer in IDLE with no host operation pending: no rule is enabled until START
  (R186). Safe. -/
  | noStepInIdle
  /-- Raised by the sequencer in DONE with no host operation pending (R189). Safe. -/
  | noStepInDone
  /-- Raised by the sequencer in FAULT with no host operation pending (R171, R189). Safe. -/
  | noStepInFault
  /-- Raised by the sequencer where no rule of its phase is enabled: POS_Y above `H` in LOAD or RECON,
  OUT_LEN of 1 to 53 or POS_X above `W` in EMIT. No run reaches such a state (R27, R149). Safe. -/
  | noRuleEnabled
  deriving DecidableEq, Repr

/-- What the model refuses to give a meaning. -/
inductive Refusal where
  /-- Raised by `exec` for an instruction that has no meaning yet. Safe. -/
  | notModelled (mnemonic : String)
  /-- Raised by the START command under an illegal configuration: the spec makes legality a premise
  of START (R10, U3). Safe. -/
  | illegalConfiguration
  /-- Raised when the host places bytes in IN while BUSY (R66, U13). Safe. -/
  | hostWritesInputDuringRun
  deriving DecidableEq, Repr

/-- The two exceptions of the block, which its spec calls faults (R160). Taking one is `raise`. -/
inductive Exn where
  /-- The input does not hold the whole record being fetched (R97, R161). -/
  | truncatedInput
  /-- The row's filter-type byte is above 4 (R106, R162). -/
  | unsupportedFilterType (ft : Byte)
  deriving DecidableEq, Repr

/-- The complete state of the block (R20). The last two fields and `params` are the model's own:
`params` are the arguments of R9 (log 8), `epoch` counts the RESETs so that the unspecified contents
after each are free values (log 2), and `hostQueue` holds what the host is about to do (log 7). -/
structure State where
  params        : Params
  phase         : Phase
  posY          : Word
  posX          : Word
  inPos         : Word
  outLen        : Nat
  cfgWidth      : Word
  cfgHeight     : Word
  cfgColor      : ColorType
  inLen         : Word
  faultCode     : Byte
  faultValue    : Byte
  faultExpected : Word
  faultActual   : Word
  regX          : OperandReg
  regA          : OperandReg
  regB          : OperandReg
  regC          : OperandReg
  input         : Memory
  ft            : Memory
  raster        : Memory
  out           : Memory
  epoch         : Nat
  hostQueue     : List HostOp
  deriving DecidableEq, Repr

/-- DESIGN CHOICE (log 1): R48 leaves X, A, B and C unspecified after RESET; the reset state holds 0. -/
def OperandReg.zero : OperandReg := { lane0 := 0, lane1 := 0, lane2 := 0, lane3 := 0 }

/-- The machine right after reset (R48). -/
def State.reset : State :=
  { params := Config.specParams
    phase := .idle
    posY := 0
    posX := 0
    inPos := 0
    outLen := 0
    cfgWidth := 0
    cfgHeight := 0
    cfgColor := .rgb
    inLen := 0
    faultCode := 0
    faultValue := 0
    faultExpected := 0
    faultActual := 0
    regX := OperandReg.zero
    regA := OperandReg.zero
    regB := OperandReg.zero
    regC := OperandReg.zero
    input := Memory.empty
    ft := Memory.empty
    raster := Memory.empty
    out := Memory.empty
    epoch := 0
    hostQueue := [] }

end Sys2Proof.Machine
end

