-- ==== Sys2Proof/Machine/Ops.lean ====
section
/-! DEFINITION. The named operations: derived quantities, memory, the raise of an exception, RESET and START. -/

namespace Sys2Proof

/-! ### Derived quantities of the output side (R8, R146, R147) -/

/-- `BITS_PER_PIXEL` of R8. -/
def Geometry.bitsPerPixel (g : Geometry) : Nat := 8 * g.color.channels

/-- `OUT_ROW_BYTES` of R8. -/
def Geometry.outRowBytes (g : Geometry) : Nat := g.width * 24 / 8

/-- The row length the padding is computed from (R146, R147). -/
def Geometry.padRowBytes (g : Geometry) (r : PadRule) : Nat :=
  match r with
  | .outputDepth => g.outRowBytes
  | .sourceDepth => g.width * g.bitsPerPixel / 8

/-- `PAD` of R146. -/
def Geometry.pad (g : Geometry) (r : PadRule) : Nat := (4 - g.padRowBytes r % 4) % 4

/-- `IMAGE_DATA_SIZE` of R8; the padding is not counted (R143). -/
def Geometry.imageDataSize (g : Geometry) : Nat := g.height * g.width * 24 / 8

/-- `FILE_SIZE_FIELD` of R8. -/
def Geometry.fileSizeField (g : Geometry) : Nat := 54 + g.imageDataSize

/-- `OUT_TOTAL` of R8 and R148. -/
def Geometry.outTotal (g : Geometry) (r : PadRule) : Nat := 54 + g.height * (g.outRowBytes + g.pad r)

/-- A quantity fits a capacity; an unbounded capacity holds anything (R9). -/
def fitsCapacity (n : Nat) (cap : Option Nat) : Bool :=
  match cap with
  | Option.none => true
  | some c => decide (n ≤ c)

/-- Legal configuration (R10). -/
def Geometry.legal (p : Params) (g : Geometry) : Bool :=
  fitsCapacity g.height p.ftCapacity && fitsCapacity (g.height * g.width) p.rasterCapacity &&
    decide (g.expectedLen < 2 ^ 32) && decide (g.fileSizeField < 2 ^ 32)

/-- `le16` of R14. -/
def le16 (v : Nat) : List Byte := [BitVec.ofNat 8 v, BitVec.ofNat 8 (v / 256)]

/-- `le32` of R14. -/
def le32 (v : Nat) : List Byte :=
  [BitVec.ofNat 8 v, BitVec.ofNat 8 (v / 256), BitVec.ofNat 8 (v / 65536), BitVec.ofNat 8 (v / 16777216)]

namespace Machine

/-! ### One memory space -/

/-- The byte written at an address, if any. -/
def lookupCell (a : Nat) : List Host.Cell → Option Byte
  | [] => Option.none
  | c :: cs => if c.1 = a then some c.2 else lookupCell a cs

/-- A byte put in at its address, the addresses kept rising. -/
def insertCell (a : Nat) (b : Byte) : List Host.Cell → List Host.Cell
  | [] => [(a, b)]
  | c :: cs =>
    if a < c.1 then (a, b) :: c :: cs
    else if a = c.1 then (a, b) :: cs
    else c :: insertCell a b cs

/-- The canonical form: addresses strictly rising. -/
abbrev Memory.wf (m : Memory) : Prop := m.cells.Pairwise fun c d => c.1 < d.1

/-- The byte written at `a`, or `none` where nothing has been written. -/
def Memory.read? (m : Memory) (a : Nat) : Option Byte := lookupCell a m.cells

/-- One byte written. -/
def Memory.write (m : Memory) (a : Nat) (b : Byte) : Memory := { cells := insertCell a b m.cells }

/-- Consecutive bytes written, the first at `a`, in ascending address order. -/
def Memory.writeAll (m : Memory) (a : Nat) : List Byte → Memory
  | [] => m
  | b :: bs => (m.write a b).writeAll (a + 1) bs

/-! ### The four spaces in the state -/

/-- A space of the state (R50). -/
def State.mem (s : State) (sp : Space) : Memory :=
  match sp with
  | .input => s.input
  | .ft => s.ft
  | .raster => s.raster
  | .out => s.out

/-- A byte of a space: what was written, or the free value of an address nothing has written
(R48, R71, U6; log 2). Reading has no side effect (R60). -/
def State.readByte (s : State) (sp : Space) (a : Nat) : Byte :=
  match (s.mem sp).read? a with
  | some b => b
  | Option.none => Config.freeByte s.epoch sp a

/-- `MemRead(S, addr, n)` of R16. -/
def State.readBytes (s : State) (sp : Space) (a n : Nat) : List Byte :=
  (List.range n).map fun k => s.readByte sp (a + k)

/-- The geometry the configuration registers give (R7, R8). -/
def State.geometry (s : State) : Geometry :=
  { width := s.cfgWidth.toNat, height := s.cfgHeight.toNat, color := s.cfgColor }

/-- The address of channel `k` of pixel (`y`, `x`) in RASTER: the linear one of R53 (log 9). -/
def rasterAddr (g : Geometry) (y x k : Nat) : Nat := (y * g.width + x) * g.bpp + k

/-- `RASTER[y][x][k]` of R16. -/
def State.rasterByte (s : State) (y x k : Nat) : Byte := s.readByte .raster (rasterAddr s.geometry y x k)

/-- `RASTER[y][x]` of R16: a whole pixel. -/
def State.readPixel (s : State) (y x : Nat) : Pixel :=
  s.readBytes .raster (rasterAddr s.geometry y x 0) s.geometry.bpp

/-- The pixels of a row, column 0 first. -/
def State.readRow (s : State) (y : Nat) : List Pixel :=
  (List.range s.geometry.width).map fun x => s.readPixel y x

/-- `RASTER[y][x] <- P` of R16: the whole pixel replaced at once (R59, R120). -/
def State.writePixel (s : State) (y x : Nat) (p : Pixel) : State :=
  { s with raster := s.raster.writeAll (rasterAddr s.geometry y x 0) p }

/-- `FT[y] <- b` of R16. -/
def State.writeFt (s : State) (y : Nat) (b : Byte) : State := { s with ft := s.ft.write y b }

/-- `OUT.append(bs)` of R16 and R54: written at OUT_LEN, which then grows. -/
def State.appendOut (s : State) (bs : List Byte) : State :=
  { s with out := s.out.writeAll s.outLen bs, outLen := s.outLen + bs.length }

/-- The bytes of OUT, for the host to read (R46, R54). -/
def State.outBytes (s : State) : List Byte := s.readBytes .out 0 s.outLen

/-- The configuration of the state is legal (R10). -/
def State.legal (s : State) : Bool := s.geometry.legal s.params

/-! ### Taking an exception, and RESET, the only way out of it -/

/-- Fault entry (R169): the fault registers and PHASE are written, POS_Y, POS_X, IN_POS and OUT_LEN
keep their values, nothing is saved and control goes nowhere. The buffers are left as they are, as
R97 and R170 allow (log 4). -/
def raise (e : Exn) (s : State) : State :=
  match e with
  | .truncatedInput =>
    { s with
      faultCode := 1
      faultValue := 0
      faultExpected := BitVec.ofNat 32 s.geometry.expectedLen
      faultActual := s.inLen
      phase := .fault }
  | .unsupportedFilterType v =>
    { s with
      faultCode := 2
      faultValue := v
      faultExpected := 0
      faultActual := 0
      phase := .fault }

/-- An operand register after RESET: any value (R48, D6), a free value of the new epoch (log 3). -/
def freeReg (epoch first : Nat) : OperandReg :=
  { lane0 := Config.freeLane epoch first
    lane1 := Config.freeLane epoch (first + 1)
    lane2 := Config.freeLane epoch (first + 2)
    lane3 := Config.freeLane epoch (first + 3) }

/-- The RESET command (R185), accepted in every phase: every piece of state at the value of R48, what
R48 leaves unspecified at a free value of a new epoch. There is no return from a fault but this
one, and it resumes nothing (R171). -/
def resetBlock (s : State) : State :=
  { State.reset with
    params := s.params
    hostQueue := s.hostQueue
    epoch := s.epoch + 1
    regX := freeReg (s.epoch + 1) 0
    regA := freeReg (s.epoch + 1) 4
    regB := freeReg (s.epoch + 1) 8
    regC := freeReg (s.epoch + 1) 12 }

/-- The START command (R188, R95): accepted in IDLE only, ignored elsewhere; with an illegal
configuration the model refuses it (R10, U3; log 6). -/
def startBlock (s : State) : Host.Outcome State Fault Refusal :=
  if s.phase = .idle then
    if s.legal then
      .next { s with
        phase := .load
        posY := 0
        posX := 0
        inPos := 0
        outLen := 0
        out := Memory.empty }
    else .refused .illegalConfiguration
  else .next s

end Machine

end Sys2Proof
end

