-- ==== Sys2Proof/Machine/Operands.lean ====
section
/-! DEFINITION. The operands of a row step: the operand registers, the neighbour fetch, and the predictor functions. -/

namespace Sys2Proof.Machine

/-- Lane `k` of a pixel. -/
def lane (p : Pixel) (k : Nat) : Byte := p.getD k 0

/-- `ZERO_PIXEL` (R22): a neighbour outside the raster, every channel 0. -/
def zeroPixel (g : Geometry) : Pixel := List.replicate g.bpp 0

/-- An operand register loaded with a pixel: its lanes are written, and under RGB lane 3 is not
(R21; log 15). -/
def OperandReg.load (r : OperandReg) (p : Pixel) : OperandReg :=
  { lane0 := p.getD 0 r.lane0
    lane1 := p.getD 1 r.lane1
    lane2 := p.getD 2 r.lane2
    lane3 := p.getD 3 r.lane3 }

/-- The pixel an operand register holds: its first `BPP` lanes (R21). -/
def OperandReg.pixel (r : OperandReg) (g : Geometry) : Pixel :=
  [r.lane0, r.lane1, r.lane2, r.lane3].take g.bpp

/-- The left neighbour (R107, R22). -/
def leftPixel (s : State) (y x : Nat) : Pixel :=
  if x > 0 then s.readPixel y (x - 1) else zeroPixel s.geometry

/-- The neighbour above (R107, R22). -/
def upPixel (s : State) (y x : Nat) : Pixel :=
  if y > 0 then s.readPixel (y - 1) x else zeroPixel s.geometry

/-- The neighbour above and to the left (R107, R22). -/
def upLeftPixel (s : State) (y x : Nat) : Pixel :=
  if x > 0 ∧ y > 0 then s.readPixel (y - 1) (x - 1) else zeroPixel s.geometry

/-- `POS_X <- x` and the load of X, A, B and C for column `x` of the row POS_Y (R106, R107). `enc` is
the record's encoded pixel of that column, which the fetch of the record has read from `RASTER[y][x]`
(log 11). -/
def loadOperands (s : State) (x : Nat) (enc : Pixel) : State :=
  { s with
    posX := BitVec.ofNat 32 x
    regX := s.regX.load enc
    regA := s.regA.load (leftPixel s s.posY.toNat x)
    regB := s.regB.load (upPixel s s.posY.toNat x)
    regC := s.regC.load (upLeftPixel s s.posY.toNat x) }

/-- `widen` of R114: the byte's value 0 to 255 under `ZEXT`, its two's complement value under `SEXT8`. -/
def widen (w : PaethWiden) (b : Byte) : Int :=
  match w with
  | .zext => (b.toNat : Int)
  | .sext8 => b.toInt

/-- The Paeth predictor (R114): exact integers; ties go to a, then b, then c; the answer is one of the
three bytes themselves. -/
def paeth (w : PaethWiden) (a b c : Byte) : Byte :=
  let p := widen w a + widen w b - widen w c
  let pa := (p - widen w a).natAbs
  let pb := (p - widen w b).natAbs
  let pc := (p - widen w c).natAbs
  if pa ≤ pb ∧ pa ≤ pc then a else if pb ≤ pc then b else c

/-- The Average predictor (R115): the sum formed exactly, then halved, rounding down. -/
def avg (a b : Byte) : Byte := BitVec.ofNat 8 ((a.toNat + b.toNat) / 2)

/-! ### The delta-reversal operations of the Pixel model (R134), lane by lane (R133) -/

/-- `pixel_none` of R134. -/
def pixelNone (x : Pixel) : Pixel := x

/-- `pixel_sub` of R134. -/
def pixelSub (x a : Pixel) : Pixel := x.mapIdx fun k v => v + lane a k

/-- `pixel_up` of R134. -/
def pixelUp (x b : Pixel) : Pixel := x.mapIdx fun k v => v + lane b k

/-- `pixel_average` of R134. -/
def pixelAverage (x a b : Pixel) : Pixel := x.mapIdx fun k v => v + avg (lane a k) (lane b k)

/-- `pixel_paeth` of R134. -/
def pixelPaeth (w : PaethWiden) (x a b c : Pixel) : Pixel :=
  x.mapIdx fun k v => v + paeth w (lane a k) (lane b k) (lane c k)

/-! ### Channel accessors (R131) -/

/-- `red(P)` of R131. -/
def red (p : Pixel) : Byte := lane p 0

/-- `green(P)` of R131. -/
def green (p : Pixel) : Byte := lane p 1

/-- `blue(P)` of R131. -/
def blue (p : Pixel) : Byte := lane p 2

/-- `alpha(P)` of R131: defined when the pixel has four channels; no rule calls it. -/
def alpha (p : Pixel) : Option Byte := p[3]?

end Sys2Proof.Machine
end

