-- ==== Sys2Proof/Machine/Filters.lean ====
section
/-! DEFINITION. The RECON row step and the meanings of NONE, SUB, UP, AVERAGE and PAETH (spec 41_defilter.md R105 to R113). -/

namespace Sys2Proof.Machine

/-- One pixel of a row step (R106): the operands loaded, the new pixel computed from the operand
registers, RASTER[POS_Y][x] replaced whole. `f` takes X, A, B and C. -/
def reconPixel (f : Pixel → Pixel → Pixel → Pixel → Pixel) (x : Nat) (enc : Pixel) (s : State) : State :=
  let l := loadOperands s x enc
  let g := l.geometry
  l.writePixel l.posY.toNat x (f (l.regX.pixel g) (l.regA.pixel g) (l.regB.pixel g) (l.regC.pixel g))

/-- The pixels of a row from column `x` on, in ascending order (R105). -/
def reconFrom (f : Pixel → Pixel → Pixel → Pixel → Pixel) : Nat → List Pixel → State → State
  | _, [], s => s
  | x, enc :: rest, s => reconFrom f (x + 1) rest (reconPixel f x enc s)

/-- The row step (R106): every pixel from column 0 on, then POS_X <- 0 and POS_Y <- POS_Y + 1. -/
def reconRow (f : Pixel → Pixel → Pixel → Pixel → Pixel) (pix : List Pixel) (s : State) : State :=
  let r := reconFrom f 0 pix s
  { r with posX := 0, posY := r.posY + 1 }

/-- NONE (R109): predictor 0. -/
def execNone (pix : List Pixel) (s : State) : Host.Outcome State Fault Refusal :=
  .next (reconRow (fun x _ _ _ => pixelNone x) pix s)

/-- SUB (R110): predictor the left pixel. -/
def execSub (pix : List Pixel) (s : State) : Host.Outcome State Fault Refusal :=
  .next (reconRow (fun x a _ _ => pixelSub x a) pix s)

/-- UP (R111): predictor the pixel above. -/
def execUp (pix : List Pixel) (s : State) : Host.Outcome State Fault Refusal :=
  .next (reconRow (fun x _ b _ => pixelUp x b) pix s)

/-- AVERAGE (R112): predictor the floor of the mean of left and up. -/
def execAverage (pix : List Pixel) (s : State) : Host.Outcome State Fault Refusal :=
  .next (reconRow (fun x a b _ => pixelAverage x a b) pix s)

/-- PAETH (R113): predictor the Paeth choice, with the machine's PAETH_WIDEN (R9, R114). -/
def execPaeth (pix : List Pixel) (s : State) : Host.Outcome State Fault Refusal :=
  .next (reconRow (fun x a b c => pixelPaeth s.params.paethWiden x a b c) pix s)

end Sys2Proof.Machine
end

