-- ==== Sys2Proof/Machine/Dispatch.lean ====
section
/-! DEFINITION. One arm per instruction. -/

namespace Sys2Proof.Machine

/-- The meaning of each instruction: the RECON row step of its opcode (R106). -/
def exec (i : Instr) (s : State) : Host.Outcome State Fault Refusal :=
  match i with
  | .none pix => Sys2Proof.Machine.execNone pix s
  | .sub pix => Sys2Proof.Machine.execSub pix s
  | .up pix => Sys2Proof.Machine.execUp pix s
  | .average pix => Sys2Proof.Machine.execAverage pix s
  | .paeth pix => Sys2Proof.Machine.execPaeth pix s

end Sys2Proof.Machine
end

