-- ==== Sys2Proof/Machine/Emit.lean ====
section
/-! DEFINITION. The EMIT phase: BMP header, bottom-up rows, padding (spec 43_reformat.md). -/

namespace Sys2Proof.Machine

/-- The file header, 14 bytes (R141). -/
def fileHeader (g : Geometry) : List Byte :=
  [0x42#8, 0x4D#8] ++ le32 g.fileSizeField ++ [0#8, 0#8, 0#8, 0#8] ++ le32 54

/-- The info header, 40 bytes (R142). -/
def infoHeader (g : Geometry) : List Byte :=
  le32 40 ++ le32 g.width ++ le32 g.height ++ le16 1 ++ le16 24 ++ le32 0 ++ le32 g.imageDataSize ++
    le32 0 ++ le32 0 ++ le32 0 ++ le32 0

/-- EMIT_HDR (R149): the 54 header bytes. -/
def emitHeader (s : State) : State := s.appendOut (fileHeader s.geometry ++ infoHeader s.geometry)

/-- The bytes of a pixel in the output: blue, green, red, alpha dropped (R145). -/
def bgr (p : Pixel) : List Byte := [blue p, green p, red p]

/-- EMIT_PIX (R149, R145): the pixel of column POS_X of the row POS_Y - 1. -/
def emitPixel (s : State) : State :=
  let t := s.appendOut (bgr (s.readPixel (s.posY.toNat - 1) s.posX.toNat))
  { t with posX := t.posX + 1 }

/-- EMIT_PAD (R149, R146): the padding of the row, nothing when `PAD` is 0. -/
def emitPad (s : State) : State :=
  let t := s.appendOut (List.replicate (s.geometry.pad s.params.padRule) 0#8)
  { t with posY := t.posY - 1, posX := 0 }

/-- EMIT_END (R149). -/
def emitEnd (s : State) : State := { s with phase := .done, posY := 0, posX := 0 }

/-- The step enabled in EMIT: one of the four (R149). -/
def emitStep (s : State) : Host.Outcome State Fault Refusal :=
  if s.outLen = 0 then .next (emitHeader s)
  else if s.outLen < 54 then .fault .noRuleEnabled
  else if s.posY.toNat = 0 then .next (emitEnd s)
  else if s.posX.toNat < s.geometry.width then .next (emitPixel s)
  else if s.posX.toNat = s.geometry.width then .next (emitPad s)
  else .fault .noRuleEnabled

end Sys2Proof.Machine
end

