-- ==== Sys2Proof/Machine/Flags.lean ====
section
/-! DEFINITION. The status bits. The block has no arithmetic flags (spec 10_state.md R28); what it shows of itself is STATUS (R36). -/

namespace Sys2Proof.Machine

/-- The number of a phase (R23). -/
def phaseNumber : Phase → Nat
  | .idle => 0
  | .load => 1
  | .recon => 2
  | .emit => 3
  | .done => 4
  | .fault => 5

/-- STATUS bit 3 and the status output DONE (R36, R166). -/
def State.doneBit (s : State) : Bool := decide (s.phase = .done)

/-- STATUS bit 4 and the status output FAULT (R36, R166). -/
def State.faultBit (s : State) : Bool := decide (s.phase = .fault)

/-- STATUS bit 5 (R36): a run is in progress. -/
def State.busy (s : State) : Bool := decide (s.phase = .load ∨ s.phase = .recon ∨ s.phase = .emit)

/-- The STATUS word (R36). -/
def State.statusWord (s : State) : Word :=
  BitVec.ofNat 32
    (phaseNumber s.phase + 8 * s.doneBit.toNat + 16 * s.faultBit.toNat + 32 * s.busy.toNat)

end Sys2Proof.Machine
end

