-- ==== Sys2Proof/Machine/HostPort.lean ====
section
/-! DEFINITION. The register interface the host sees, and the host's operations (spec 10_state.md R29 to R41, 70_reset_and_hazards.md R187). -/

namespace Sys2Proof.Machine

/-- The offset of a register in the register map (R29). -/
def regOffset : Reg → Nat
  | .cfgWidth => 0x00
  | .cfgHeight => 0x04
  | .cfgColor => 0x08
  | .inLen => 0x0C
  | .ctrl => 0x10
  | .status => 0x14
  | .faultCode => 0x18
  | .faultValue => 0x1C
  | .faultExpected => 0x20
  | .faultActual => 0x24
  | .posY => 0x28
  | .posX => 0x2C
  | .inPos => 0x30
  | .outLen => 0x34

/-- CFG_COLOR as read: 0 for RGB, 1 for RGBA (R33). -/
def colorBit : ColorType → Word
  | .rgb => 0
  | .rgba => 1

/-- CFG_COLOR as written: bit 0 alone counts (R29, R33). -/
def colorOfWord (v : Word) : ColorType := if v.getLsbD 0 then .rgba else .rgb

/-- A host read of a register: a whole 32-bit value, unnamed bits 0, no side effect (R29, R60). CTRL
reads as 0 (R35). -/
def State.readReg (s : State) (r : Reg) : Word :=
  match r with
  | .cfgWidth => s.cfgWidth
  | .cfgHeight => s.cfgHeight
  | .cfgColor => colorBit s.cfgColor
  | .inLen => s.inLen
  | .ctrl => 0
  | .status => s.statusWord
  | .faultCode => s.faultCode.setWidth 32
  | .faultValue => s.faultValue.setWidth 32
  | .faultExpected => s.faultExpected
  | .faultActual => s.faultActual
  | .posY => s.posY
  | .posX => s.posX
  | .inPos => s.inPos
  | .outLen => BitVec.ofNat 32 s.outLen

/-- A write of CTRL (R35): bit 1 is RESET and wins over bit 0, which is START; other bits do nothing. -/
def writeCtrl (v : Word) (s : State) : Host.Outcome State Fault Refusal :=
  if v.getLsbD 1 then .next (resetBlock s)
  else if v.getLsbD 0 then startBlock s
  else .next s

/-- A host write of a register: the configuration registers in IDLE only (R30), CTRL always, every
other write ignored (R29, R30, U17). -/
def writeReg (r : Reg) (v : Word) (s : State) : Host.Outcome State Fault Refusal :=
  match r with
  | .cfgWidth => .next (if s.phase = .idle then { s with cfgWidth := v } else s)
  | .cfgHeight => .next (if s.phase = .idle then { s with cfgHeight := v } else s)
  | .cfgColor => .next (if s.phase = .idle then { s with cfgColor := colorOfWord v } else s)
  | .inLen => .next (if s.phase = .idle then { s with inLen := v } else s)
  | .ctrl => writeCtrl v s
  | .status => .next s
  | .faultCode => .next s
  | .faultValue => .next s
  | .faultExpected => .next s
  | .faultActual => .next s
  | .posY => .next s
  | .posX => .next s
  | .inPos => .next s
  | .outLen => .next s

/-- The host places the decompressed bytes in IN from address 0 on (R187, step 3); while BUSY it must
not, and the model refuses it (R66, U13). -/
def placeInput (bytes : List Byte) (s : State) : Host.Outcome State Fault Refusal :=
  if s.busy then .refused .hostWritesInputDuringRun
  else .next { s with input := s.input.writeAll 0 bytes }

end Sys2Proof.Machine
end

