-- ==== Sys2Proof/Machine/Load.lean ====
section
/-! DEFINITION. The LOAD phase: the Raster Splitter (spec 40_raster_split.md). -/

namespace Sys2Proof.Machine

/-- The pixels of a record moved from IN to RASTER row `y`: `n` of them from column `x` on, ascending
(R96). `base` is the IN address of the record. -/
def loadPixels (y base : Nat) : (n : Nat) → (x : Nat) → State → State
  | 0, _, s => s
  | n + 1, x, s =>
    loadPixels y base n (x + 1)
      (s.writePixel y x (s.readBytes .input (base + 1 + x * s.geometry.bpp) s.geometry.bpp))

/-- The LOAD step of the record POS_Y (R96): its filter-type byte stored unchecked, its pixels stored
unchanged; TruncatedInput when IN does not hold the whole record (R97). -/
def loadRecord (s : State) : State :=
  if s.inPos.toNat + s.geometry.recLen > s.inLen.toNat then raise .truncatedInput s
  else
    let y := s.posY.toNat
    let base := s.inPos.toNat
    let r := loadPixels y base s.geometry.width 0 (s.writeFt y (s.readByte .input base))
    { r with
      inPos := r.inPos + BitVec.ofNat 32 r.geometry.recLen
      posY := r.posY + 1 }

/-- The end of LOAD (R99). -/
def loadEnd (s : State) : State := { s with phase := .recon, posY := 0, posX := 0 }

/-- The step enabled in LOAD (R96, R99). -/
def loadStep (s : State) : Host.Outcome State Fault Refusal :=
  if s.posY.toNat < s.geometry.height then .next (loadRecord s)
  else if s.posY.toNat = s.geometry.height then .next (loadEnd s)
  else .fault .noRuleEnabled

end Sys2Proof.Machine
end

