-- ==== Sys2Proof/Machine/Sequencer.lean ====
section
/-! DEFINITION. The sequencer: which rule is enabled in each phase (spec 00_scope.md R12, 10_state.md R26), and how the host's operations come in. -/

namespace Sys2Proof.Machine

/-- The bytes of the record the RECON row step executes: the opcode in FT[POS_Y] and the encoded
pixels LOAD has placed in RASTER row POS_Y (R67, R106). -/
def State.fetchedRecord (s : State) : List Byte :=
  s.readByte .ft s.posY.toNat :: (s.readRow s.posY.toNat).flatten

/-- The RECON row step (R106): the filter-type byte is decoded first, whatever `W` is; an illegal one
raises UnsupportedFilterType before anything is touched (R82, R162). -/
def reconRecord (s : State) : Host.Outcome State Fault Refusal :=
  match decodeRecord (s.readByte .ft s.posY.toNat) (s.readRow s.posY.toNat) with
  | some i => exec i s
  | Option.none => .next (raise (.unsupportedFilterType (s.readByte .ft s.posY.toNat)) s)

/-- The end of RECON (R118). -/
def reconEnd (s : State) : State := { s with phase := .emit, posY := s.cfgHeight, posX := 0 }

/-- The step enabled in RECON (R106, R118). -/
def reconStep (s : State) : Host.Outcome State Fault Refusal :=
  if s.posY.toNat < s.geometry.height then reconRecord s
  else if s.posY.toNat = s.geometry.height then .next (reconEnd s)
  else .fault .noRuleEnabled

/-- One step of the sequencer (R12). In IDLE, DONE and FAULT it has none (R186, R189, R171; log 5). -/
def sequencerStep (s : State) : Host.Outcome State Fault Refusal :=
  match s.phase with
  | .idle => .fault .noStepInIdle
  | .load => loadStep s
  | .recon => reconStep s
  | .emit => emitStep s
  | .done => .fault .noStepInDone
  | .fault => .fault .noStepInFault

/-- One operation of the host (R177). While the host waits, the sequencer takes its step if it has one. -/
def hostStep (op : HostOp) (s : State) : Host.Outcome State Fault Refusal :=
  match op with
  | .write r v => writeReg r v s
  | .place bytes => placeInput bytes s
  | .wait => if s.busy then sequencerStep s else .next s

/-- One step: the host's oldest pending operation, or the sequencer's step when there is none (log 7). -/
def agentStep (s : State) : Host.Outcome State Fault Refusal :=
  match s.hostQueue with
  | [] => sequencerStep s
  | op :: rest => hostStep op { s with hostQueue := rest }

/-- The one-record program of a table word, loaded and about to be executed: the configuration of
`tableGeometry`, its bytes in IN, its opcode in FT[0] and its pixel in RASTER row 0, LOAD completed,
the position at (RECON, 0, 0) and no host operation pending (log 12). -/
def placeRecord (s : State) (bytes : List Byte) : State :=
  { s with
    phase := .recon
    posY := 0
    posX := 0
    inPos := BitVec.ofNat 32 tableGeometry.expectedLen
    outLen := 0
    cfgWidth := BitVec.ofNat 32 tableGeometry.width
    cfgHeight := BitVec.ofNat 32 tableGeometry.height
    cfgColor := tableGeometry.color
    inLen := BitVec.ofNat 32 tableGeometry.expectedLen
    faultCode := 0
    faultValue := 0
    faultExpected := 0
    faultActual := 0
    input := Memory.empty.writeAll 0 bytes
    ft := Memory.empty.writeAll 0 (bytes.take 1)
    raster := Memory.empty.writeAll 0 (bytes.drop 1)
    out := Memory.empty
    hostQueue := [] }

end Sys2Proof.Machine
end

