-- ==== Sys2Proof/Machine/Step.lean ====
section
/-! DEFINITION. The step of the machine. -/

namespace Sys2Proof.Machine

/-- One step of the machine: `agentStep`. -/
def step : State → Host.Outcome State Fault Refusal := agentStep

/-- `s` with the instruction of a table word loaded, so that the next step executes it (log 12). -/
def State.withFetchWord (s : State) (nbits w : Nat) : State := placeRecord s (tableBytes nbits w)

end Sys2Proof.Machine
end

