-- ==== Sys2Proof/Safety.lean ====
section
/-! DEFINITION. The terms the claims use: the invariant of the machine, what a whole run computes, and when it ends. -/

namespace Sys2Proof

/-! ### What a run computes, as plain functions of the input -/

/-- The input bytes of a run, by IN address. -/
abbrev InputBytes := Nat → Byte

/-- The filter-type byte of row `y` in IN (R79). -/
def filterByte (g : Geometry) (inp : InputBytes) (y : Nat) : Byte := inp (y * g.recLen)

/-- The encoded byte of row `y`, column `x`, channel `k` in IN (R79). -/
def encodedByte (g : Geometry) (inp : InputBytes) (y x k : Nat) : Byte := inp (y * g.recLen + 1 + x * g.bpp + k)

/-- `pred` of R108 to R113, by filter-type byte. -/
def predictor (w : PaethWiden) (ft a b c : Byte) : Byte :=
  if ft = 0 then 0
  else if ft = 1 then a
  else if ft = 2 then b
  else if ft = 3 then Machine.avg a b
  else Machine.paeth w a b c

/-- A reconstructed row as the recursion on `x` of R122, one channel byte at a time: `enc` is the
encoded row and `prev` the reconstructed row above it. -/
def refRow (w : PaethWiden) (ft : Byte) (enc prev : Nat → Nat → Byte) : Nat → Nat → Byte
  | 0, k => enc 0 k + predictor w ft 0 (prev 0 k) 0
  | x + 1, k => enc (x + 1) k + predictor w ft (refRow w ft enc prev x k) (prev (x + 1) k) (prev x k)

/-- The reconstructed raster as the recursion on `y` of R122; above row 0 every byte is 0. -/
def refRaster (w : PaethWiden) (g : Geometry) (inp : InputBytes) : Nat → Nat → Nat → Byte
  | 0 => refRow w (filterByte g inp 0) (encodedByte g inp 0) fun _ _ => 0
  | y + 1 => refRow w (filterByte g inp (y + 1)) (encodedByte g inp (y + 1)) (refRaster w g inp y)

/-- The 54 header bytes (R141, R142). -/
def refHeader (g : Geometry) : List Byte := Machine.fileHeader g ++ Machine.infoHeader g

/-- The first `n` pixels of an output row of raster row `y`: blue, green, red (R145). -/
def refPixels (ras : Nat → Nat → Nat → Byte) (y n : Nat) : List Byte :=
  (List.range n).flatMap fun x => [ras y x 2, ras y x 1, ras y x 0]

/-- One output row: its pixels, then the padding (R146). -/
def refOutRow (p : Params) (g : Geometry) (ras : Nat → Nat → Nat → Byte) (y : Nat) : List Byte :=
  refPixels ras y g.width ++ List.replicate (g.pad p.padRule) 0

/-- The output rows of raster rows `H - 1` down to `y`, the last raster row first (R144). -/
def refRowsDownTo (p : Params) (g : Geometry) (ras : Nat → Nat → Nat → Byte) (y : Nat) : List Byte :=
  ((List.range' y (g.height - y)).reverse).flatMap (refOutRow p g ras)

/-- The whole output of a run (R140). -/
def refBmp (p : Params) (g : Geometry) (inp : InputBytes) : List Byte :=
  refHeader g ++ refRowsDownTo p g (refRaster p.paethWiden g inp) 0

namespace Machine

/-- The input of the run in progress. -/
def State.inputBytes (s : State) : InputBytes := fun a => s.readByte .input a

/-- The reconstructed image of the run in progress. -/
def State.refByte (s : State) : Nat → Nat → Nat → Byte :=
  refRaster s.params.paethWiden s.geometry s.inputBytes

/-! ### The invariant -/

/-- OUT is filled without a gap: its listed addresses are 0 to OUT_LEN - 1 (R50, R54). -/
def OutFilled (s : State) : Prop := s.out.cells.map Prod.fst = List.range s.outLen

/-- FT and RASTER hold nothing outside their sizes (R50, R63). -/
def InBounds (s : State) : Prop :=
  (∀ c ∈ s.ft.cells, c.1 < s.geometry.height) ∧
    ∀ c ∈ s.raster.cells, c.1 < s.geometry.height * s.geometry.width * s.geometry.bpp

/-- No fault is recorded (R37 to R40). -/
def NoFaultRecorded (s : State) : Prop :=
  s.faultCode = 0 ∧ s.faultValue = 0 ∧ s.faultExpected = 0 ∧ s.faultActual = 0

/-- The fault registers record TruncatedInput (R160, R40). -/
def TruncationRecorded (s : State) : Prop :=
  s.faultCode = 1 ∧ s.faultValue = 0 ∧ s.faultExpected.toNat = s.geometry.expectedLen ∧
    s.faultActual = s.inLen ∧ s.faultActual.toNat < s.faultExpected.toNat

/-- The fault registers record UnsupportedFilterType, which a run raises after the whole input has been
loaded (R160, R38, R167). -/
def BadFilterRecorded (s : State) : Prop :=
  s.faultCode = 2 ∧ 4 < s.faultValue.toNat ∧ s.faultExpected = 0 ∧ s.faultActual = 0 ∧
    s.inPos.toNat = s.geometry.expectedLen

/-- What the registers of the scan position and the counters hold in each phase (R23 to R27). -/
def PositionOk (s : State) : Prop :=
  match s.phase with
  | .idle =>
    s.posY = 0 ∧ s.posX = 0 ∧ s.inPos = 0 ∧ s.outLen = 0 ∧ s.ft.cells = [] ∧ s.raster.cells = [] ∧
      NoFaultRecorded s
  | .load =>
    s.legal = true ∧ s.posY.toNat ≤ s.geometry.height ∧ s.posX = 0 ∧
      s.inPos.toNat = s.posY.toNat * s.geometry.recLen ∧ s.inPos.toNat ≤ s.inLen.toNat ∧ s.outLen = 0 ∧
      NoFaultRecorded s
  | .recon =>
    s.legal = true ∧ s.posY.toNat ≤ s.geometry.height ∧ s.posX = 0 ∧
      s.inPos.toNat = s.geometry.expectedLen ∧ s.inPos.toNat ≤ s.inLen.toNat ∧ s.outLen = 0 ∧
      NoFaultRecorded s
  | .emit =>
    s.legal = true ∧ s.posY.toNat ≤ s.geometry.height ∧ s.posX.toNat ≤ s.geometry.width ∧
      s.inPos.toNat = s.geometry.expectedLen ∧ s.inPos.toNat ≤ s.inLen.toNat ∧
      (s.posY = 0 → s.posX = 0) ∧
      (s.outLen = 0 ∧ s.posY = s.cfgHeight ∧ s.posX = 0 ∨
        s.outLen = 54 + (s.geometry.height - s.posY.toNat) *
          (s.geometry.outRowBytes + s.geometry.pad s.params.padRule) + 3 * s.posX.toNat) ∧
      NoFaultRecorded s
  | .done =>
    s.legal = true ∧ s.posY = 0 ∧ s.posX = 0 ∧ s.inPos.toNat = s.geometry.expectedLen ∧
      s.inPos.toNat ≤ s.inLen.toNat ∧ s.outLen = s.geometry.outTotal s.params.padRule ∧ NoFaultRecorded s
  | .fault =>
    s.legal = true ∧ s.posY.toNat < s.geometry.height ∧ s.posX = 0 ∧ s.inPos.toNat ≤ s.inLen.toNat ∧
      s.outLen = 0 ∧ (TruncationRecorded s ∨ BadFilterRecorded s)

/-- The invariant: every space in canonical form, OUT without a gap, FT and RASTER inside their sizes,
and the position as the phase has it. -/
structure Inv (s : State) : Prop where
  inputWf : s.input.wf
  ftWf : s.ft.wf
  rasterWf : s.raster.wf
  outWf : s.out.wf
  outFilled : OutFilled s
  inBounds : InBounds s
  position : PositionOk s

/-! ### A run does what the reference functions say -/

/-- Rows `lo` to `hi - 1` of RASTER hold the encoded bytes of IN (R100). -/
def RowsEncoded (s : State) (lo hi : Nat) : Prop :=
  ∀ y x k, lo ≤ y → y < hi → x < s.geometry.width → k < s.geometry.bpp →
    s.rasterByte y x k = encodedByte s.geometry s.inputBytes y x k

/-- Rows 0 to `hi - 1` of RASTER hold the reconstructed bytes (R118). -/
def RowsReconstructed (s : State) (hi : Nat) : Prop :=
  ∀ y x k, y < hi → x < s.geometry.width → k < s.geometry.bpp → s.rasterByte y x k = s.refByte y x k

/-- Rows 0 to `hi - 1` have a legal filter-type byte in IN (R81). -/
def FiltersLegal (s : State) (hi : Nat) : Prop :=
  ∀ y, y < hi → (filterByte s.geometry s.inputBytes y).toNat ≤ 4

/-- FT entries 0 to `hi - 1` hold the filter-type bytes of IN (R100). -/
def FiltersLoaded (s : State) (hi : Nat) : Prop :=
  ∀ y, y < hi → s.readByte .ft y = filterByte s.geometry s.inputBytes y

/-- What OUT holds during EMIT once the header is out: the header, the rows below POS_Y, and the
pixels of the row POS_Y - 1 up to POS_X (R140, R149). -/
def emitted (s : State) : List Byte :=
  refHeader s.geometry ++ refRowsDownTo s.params s.geometry s.refByte s.posY.toNat ++
    refPixels s.refByte (s.posY.toNat - 1) s.posX.toNat

/-- The contents of FT, RASTER and OUT are what the reference functions give, phase by phase. After a
fault nothing is said of FT and RASTER (R170). -/
def FollowsReference (s : State) : Prop :=
  match s.phase with
  | .idle => True
  | .load => FiltersLoaded s s.posY.toNat ∧ RowsEncoded s 0 s.posY.toNat
  | .recon =>
    FiltersLoaded s s.geometry.height ∧ FiltersLegal s s.posY.toNat ∧ RowsReconstructed s s.posY.toNat ∧
      RowsEncoded s s.posY.toNat s.geometry.height
  | .emit =>
    FiltersLegal s s.geometry.height ∧ RowsReconstructed s s.geometry.height ∧
      (s.outLen = 0 ∨ s.outBytes = emitted s)
  | .done =>
    FiltersLegal s s.geometry.height ∧ RowsReconstructed s s.geometry.height ∧
      s.outBytes = refBmp s.params s.geometry s.inputBytes
  | .fault =>
    s.faultCode = 2 →
      s.faultValue = filterByte s.geometry s.inputBytes s.posY.toNat ∧ FiltersLegal s s.posY.toNat

/-! ### The end of a run, and the commands pending -/

/-- The host's next operation is the RESET command: a write of CTRL with bit 1 set (R35). -/
def ResetPending (s : State) : Prop := ∃ v rest, s.hostQueue = .write .ctrl v :: rest ∧ v.getLsbD 1 = true

/-- DONE or FAULT: the run has ended (R189). -/
def Ended (s : State) : Prop := s.phase = .done ∨ s.phase = .fault

/-- How many steps of the sequencer a fault-free run has left (R197, R198). -/
def stepsLeft (s : State) : Nat :=
  let rows := s.geometry.height
  let emitRows := rows * (s.geometry.width + 1)
  match s.phase with
  | .idle => 0
  | .load => (rows - s.posY.toNat) + 1 + (rows + 1) + (1 + emitRows + 1)
  | .recon => (rows - s.posY.toNat) + 1 + (1 + emitRows + 1)
  | .emit =>
    (if s.outLen = 0 then 1 else 0) + (s.posY.toNat * (s.geometry.width + 1) - s.posX.toNat) + 1
  | .done => 0
  | .fault => 0

/-! ### The alpha lane -/

/-- `a` is the IN address of an alpha byte of the run (R79, R132). -/
def isAlphaAddr (g : Geometry) (a : Nat) : Prop := ∃ y x, x < g.width ∧ a = y * g.recLen + 1 + x * g.bpp + 3

/-- Two states of an RGBA run that may differ in alpha bytes only, of IN and of RASTER (R132). Of the
operand registers nothing is said, nor of FT once RECON is over, nor of RASTER after a fault: their
contents then are unspecified (R121, R170, R189). -/
structure SameButAlpha (s t : State) : Prop where
  rgba : s.cfgColor = .rgba
  params : t.params = s.params
  phase : t.phase = s.phase
  posY : t.posY = s.posY
  posX : t.posX = s.posX
  inPos : t.inPos = s.inPos
  outLen : t.outLen = s.outLen
  cfgWidth : t.cfgWidth = s.cfgWidth
  cfgHeight : t.cfgHeight = s.cfgHeight
  cfgColor : t.cfgColor = s.cfgColor
  inLen : t.inLen = s.inLen
  faultCode : t.faultCode = s.faultCode
  faultValue : t.faultValue = s.faultValue
  faultExpected : t.faultExpected = s.faultExpected
  faultActual : t.faultActual = s.faultActual
  input : ∀ a, ¬ isAlphaAddr s.geometry a → t.readByte .input a = s.readByte .input a
  ft : s.phase = .load ∨ s.phase = .recon → ∀ y, t.readByte .ft y = s.readByte .ft y
  raster : s.phase ≠ .fault → ∀ y x k, x < s.geometry.width → k < 3 → t.rasterByte y x k = s.rasterByte y x k
  out : t.outBytes = s.outBytes
  hostQueue : t.hostQueue = s.hostQueue

end Machine

end Sys2Proof
end

