-- ==== Sys2Proof/Certificates/Slice0/Obligations.lean ====
section
/-! DEFINITION. The statements for the provers, each citing the rules of spec/ it formalises or rests on. -/

open Sys2Proof Sys2Proof.Machine

/-! ### Encoding -/

/-- R76 to R78, R81: decoding the bytes of a well-formed record, whatever follows them, gives the record
back with every pixel byte, and leaves what follows. -/
def Obligations.DecodeOfEncodeIsTheRecord : Prop :=
  ∀ (g : Geometry) (i : Instr) (rest : List Byte), WellFormed g i → decode g (encode i ++ rest) = .ok (i, rest)

/-- R80, R82, R97: fewer than `REC_LEN` bytes are rejected as truncated; a first byte above 4 is
rejected under its value; every other record decodes, to a well-formed instruction of that opcode
whose bytes are the ones read. -/
def Obligations.DecodeAcceptsExactlyTheLegalRecords : Prop :=
  ∀ (g : Geometry) (bytes : List Byte),
    (bytes.length < g.recLen → decode g bytes = .error .truncated) ∧
    ∀ ft rest, bytes = ft :: rest → g.recLen ≤ bytes.length →
      (4 < ft.toNat → decode g bytes = .error (.unsupportedFilterType ft)) ∧
      (ft.toNat ≤ 4 → ∃ i after, decode g bytes = .ok (i, after) ∧ opcodeByte i = ft ∧ WellFormed g i ∧
        bytes = encode i ++ after)

/-- R76, R78, R79: pixel `x`, channel `k` of a decoded record is byte `1 + x * BPP + k` of the record. -/
def Obligations.PixelOperandsStandAtTheirOffsets : Prop :=
  ∀ (g : Geometry) (bytes : List Byte) (i : Instr) (after : List Byte) (x k : Nat),
    decode g bytes = .ok (i, after) → x < g.width → k < g.bpp →
    (i.pixels[x]?.bind fun p => p[k]?) = bytes[1 + x * g.bpp + k]?

/-- R81, R84: words written out from the record format: the five opcodes on one RGB pixel, and the
nine bytes of R84 read as one RGBA record and as one RGB record with two bytes left. -/
def Obligations.SpecWordsDecode : Prop :=
  decode ⟨1, 1, .rgb⟩ [0x00, 0x0A, 0x14, 0x1E] = .ok (.none [[0x0A, 0x14, 0x1E]], []) ∧
  decode ⟨1, 1, .rgb⟩ [0x01, 0x0A, 0x14, 0x1E] = .ok (.sub [[0x0A, 0x14, 0x1E]], []) ∧
  decode ⟨1, 1, .rgb⟩ [0x02, 0x0A, 0x14, 0x1E] = .ok (.up [[0x0A, 0x14, 0x1E]], []) ∧
  decode ⟨1, 1, .rgb⟩ [0x03, 0x0A, 0x14, 0x1E] = .ok (.average [[0x0A, 0x14, 0x1E]], []) ∧
  decode ⟨1, 1, .rgb⟩ [0x04, 0x0A, 0x14, 0x1E] = .ok (.paeth [[0x0A, 0x14, 0x1E]], []) ∧
  decode ⟨2, 1, .rgba⟩ [0, 1, 2, 3, 4, 5, 6, 7, 8] = .ok (.none [[1, 2, 3, 4], [5, 6, 7, 8]], []) ∧
  decode ⟨2, 1, .rgb⟩ [0, 1, 2, 3, 4, 5, 6, 7, 8] = .ok (.none [[1, 2, 3], [4, 5, 6]], [7, 8]) ∧
  decode ⟨1, 1, .rgb⟩ [0x81, 0x0A, 0x0B, 0x0C] = .error (.unsupportedFilterType 0x81)

/-- Log 12: the instruction the decoder reads from a table word is the one the next step executes once
the word is placed; the model's own convention. -/
def Obligations.PlacedTableWordIsExecutedNext : Prop :=
  ∀ (s : State) (nbits w : Nat) (i : Instr), decodeTableWord nbits w = some i →
    step (s.withFetchWord nbits w) = exec i (s.withFetchWord nbits w)

/-- R67, R106: in RECON, with a row left, a step is the execution of the record that FT[POS_Y] and
RASTER row POS_Y hold: with no host operation pending, or with the host waiting (log 7). -/
def Obligations.StepExecutesTheDecodedRecord : Prop :=
  ∀ (s : State) (i : Instr), s.phase = .recon → s.posY.toNat < s.geometry.height →
    decode s.geometry s.fetchedRecord = .ok (i, []) →
    WellFormed s.geometry i ∧
    (s.hostQueue = [] → step s = exec i s) ∧
    ∀ rest, s.hostQueue = .wait :: rest → step s = exec i { s with hostQueue := rest }

/-! ### The five instructions -/

/-- R109: NONE, opcode 0x00, leaves every byte of the row as encoded, and the position moves to the next row. -/
def Obligations.NoneKeepsEveryByte : Prop :=
  ∀ (s : State) (pix : List Pixel), WellFormed s.geometry (.none pix) → s.posY.toNat < s.geometry.height →
    opcodeByte (.none pix) = 0x00 ∧
    ∃ t, exec (.none pix) s = .next t ∧ t.posX = 0 ∧ t.posY.toNat = s.posY.toNat + 1 ∧
      ∀ x k (hx : x < pix.length), k < s.geometry.bpp → t.rasterByte s.posY.toNat x k = lane pix[x] k

/-- R110: SUB, opcode 0x01, adds the reconstructed left pixel's same channel mod 256, nothing at column 0, so that a
byte is the sum of the encoded bytes up to it. -/
def Obligations.SubIsARunningSum : Prop :=
  ∀ (s : State) (pix : List Pixel), WellFormed s.geometry (.sub pix) → s.posY.toNat < s.geometry.height →
    opcodeByte (.sub pix) = 0x01 ∧
    ∃ t, exec (.sub pix) s = .next t ∧ t.posX = 0 ∧ t.posY.toNat = s.posY.toNat + 1 ∧
      ∀ x k (hx : x < pix.length), k < s.geometry.bpp →
        (t.rasterByte s.posY.toNat x k).toNat =
          ((lane pix[x] k).toNat + if x > 0 then (t.rasterByte s.posY.toNat (x - 1) k).toNat else 0) % 256 ∧
        (t.rasterByte s.posY.toNat x k).toNat =
          ((pix.take (x + 1)).map fun p => (lane p k).toNat).sum % 256

/-- R111: UP, opcode 0x02, adds the byte of the row above mod 256, nothing in row 0. -/
def Obligations.UpAddsThePixelAbove : Prop :=
  ∀ (s : State) (pix : List Pixel), WellFormed s.geometry (.up pix) → s.posY.toNat < s.geometry.height →
    opcodeByte (.up pix) = 0x02 ∧
    ∃ t, exec (.up pix) s = .next t ∧ t.posX = 0 ∧ t.posY.toNat = s.posY.toNat + 1 ∧
      ∀ x k (hx : x < pix.length), k < s.geometry.bpp →
        (t.rasterByte s.posY.toNat x k).toNat =
          ((lane pix[x] k).toNat +
            if s.posY.toNat > 0 then (s.rasterByte (s.posY.toNat - 1) x k).toNat else 0) % 256

/-- R112, R115: AVERAGE, opcode 0x03, adds the floor of the mean of the reconstructed left byte and the byte above,
the sum not wrapped, an absent neighbour counting as 0. -/
def Obligations.AverageAddsTheFloorOfTheMean : Prop :=
  ∀ (s : State) (pix : List Pixel), WellFormed s.geometry (.average pix) → s.posY.toNat < s.geometry.height →
    opcodeByte (.average pix) = 0x03 ∧
    ∃ t, exec (.average pix) s = .next t ∧ t.posX = 0 ∧ t.posY.toNat = s.posY.toNat + 1 ∧
      ∀ x k (hx : x < pix.length), k < s.geometry.bpp →
        (t.rasterByte s.posY.toNat x k).toNat =
          ((lane pix[x] k).toNat +
            ((if x > 0 then (t.rasterByte s.posY.toNat (x - 1) k).toNat else 0) +
              (if s.posY.toNat > 0 then (s.rasterByte (s.posY.toNat - 1) x k).toNat else 0)) / 2) % 256

/-- R113, R114: PAETH, opcode 0x04, adds the Paeth choice among the reconstructed left byte, the byte above and the
byte above and to the left, absent neighbours being 0, under the machine's PAETH_WIDEN. -/
def Obligations.PaethAddsTheChosenNeighbour : Prop :=
  ∀ (s : State) (pix : List Pixel), WellFormed s.geometry (.paeth pix) → s.posY.toNat < s.geometry.height →
    opcodeByte (.paeth pix) = 0x04 ∧
    ∃ t, exec (.paeth pix) s = .next t ∧ t.posX = 0 ∧ t.posY.toNat = s.posY.toNat + 1 ∧
      ∀ x k (hx : x < pix.length), k < s.geometry.bpp →
        (t.rasterByte s.posY.toNat x k).toNat =
          ((lane pix[x] k).toNat +
            (paeth s.params.paethWiden
              (if x > 0 then t.rasterByte s.posY.toNat (x - 1) k else 0)
              (if s.posY.toNat > 0 then s.rasterByte (s.posY.toNat - 1) x k else 0)
              (if x > 0 ∧ s.posY.toNat > 0 then s.rasterByte (s.posY.toNat - 1) (x - 1) k else 0)).toNat) % 256

/-- R106: the frame of NONE, SUB, UP, AVERAGE and PAETH: a next state differs in POS_X, POS_Y, the
operand registers X, A, B, C and RASTER alone, and in RASTER at the bytes of the pixels of row POS_Y
alone; a well-formed record leaves lane 3 of X, A, B and C as it was under RGB (R21: log 15). -/
def Obligations.RowStepFrame : Prop :=
  ∀ (i : Instr) (s t : State), exec i s = .next t →
    t = { s with
      posX := t.posX
      posY := t.posY
      regX := t.regX
      regA := t.regA
      regB := t.regB
      regC := t.regC
      raster := t.raster } ∧
    (∀ a, (∀ x k, x < i.pixels.length → k < s.geometry.bpp → a ≠ rasterAddr s.geometry s.posY.toNat x k) →
      t.readByte .raster a = s.readByte .raster a) ∧
    (s.cfgColor = .rgb → WellFormed s.geometry i →
      t.regX.lane3 = s.regX.lane3 ∧ t.regA.lane3 = s.regA.lane3 ∧ t.regB.lane3 = s.regB.lane3 ∧
      t.regC.lane3 = s.regC.lane3)

/-- R106: an illegal filter-type byte, with or without pixels in the row, is a fault: a next state in
FAULT with code 2 and the byte, the position, the counters, the configuration and OUT as before. -/
def Obligations.IllegalFilterTypeEntersFault : Prop :=
  ∀ s : State, s.hostQueue = [] → s.phase = .recon → s.posY.toNat < s.geometry.height →
    4 < (s.readByte .ft s.posY.toNat).toNat →
    ∃ t, step s = .next t ∧ t.phase = .fault ∧ t.faultCode = 2 ∧ t.faultValue = s.readByte .ft s.posY.toNat ∧
      t.faultExpected = 0 ∧ t.faultActual = 0 ∧ t.posY = s.posY ∧ t.posX = s.posX ∧ t.inPos = s.inPos ∧
      t.outLen = s.outLen ∧ t.outBytes = s.outBytes ∧ t.geometry = s.geometry ∧ t.inLen = s.inLen ∧
      t.input = s.input ∧ t.params = s.params

/-- R133: lane `k` of a reconstructed row depends on lane `k` of the record and of the row above and on
nothing else: two records of one opcode, executed in two states of one geometry, that agree in lane
`k`, give rows that agree in lane `k`. -/
def Obligations.LanesNeverMix : Prop :=
  ∀ (s t : State) (i j : Instr) (k : Nat), opcodeByte i = opcodeByte j → WellFormed s.geometry i →
    WellFormed s.geometry j → t.geometry = s.geometry → t.params = s.params → t.posY = s.posY →
    k < s.geometry.bpp →
    (∀ x (hi : x < i.pixels.length) (hj : x < j.pixels.length), lane i.pixels[x] k = lane j.pixels[x] k) →
    (∀ x, x < s.geometry.width → 0 < s.posY.toNat →
      s.rasterByte (s.posY.toNat - 1) x k = t.rasterByte (s.posY.toNat - 1) x k) →
    ∃ s' t', exec i s = .next s' ∧ exec j t = .next t' ∧
      ∀ x, x < s.geometry.width → s'.rasterByte s.posY.toNat x k = t'.rasterByte s.posY.toNat x k

/-- R117: in row 0 PAETH is SUB and UP is NONE and AVERAGE adds half the left byte; at column 0 PAETH
gives what UP gives, SUB what NONE gives, and AVERAGE adds half the byte above. -/
def Obligations.PredictorsAtTheEdges : Prop :=
  ∀ (s : State) (pix : List Pixel), WellFormed s.geometry (.sub pix) →
    (s.posY = 0 →
      exec (.paeth pix) s = exec (.sub pix) s ∧ exec (.up pix) s = exec (.none pix) s ∧
      ∃ t, exec (.average pix) s = .next t ∧ ∀ x k (hx : x < pix.length), 0 < x → k < s.geometry.bpp →
        t.rasterByte 0 x k = lane pix[x] k + BitVec.ofNat 8 ((t.rasterByte 0 (x - 1) k).toNat / 2)) ∧
    ∃ tp tu ts tn ta, exec (.paeth pix) s = .next tp ∧ exec (.up pix) s = .next tu ∧
      exec (.sub pix) s = .next ts ∧ exec (.none pix) s = .next tn ∧ exec (.average pix) s = .next ta ∧
      ∀ k (h0 : 0 < pix.length), k < s.geometry.bpp →
        tp.rasterByte s.posY.toNat 0 k = tu.rasterByte s.posY.toNat 0 k ∧
        ts.rasterByte s.posY.toNat 0 k = tn.rasterByte s.posY.toNat 0 k ∧
        (0 < s.posY.toNat → ta.rasterByte s.posY.toNat 0 k =
          lane pix[0] k + BitVec.ofNat 8 ((s.rasterByte (s.posY.toNat - 1) 0 k).toNat / 2))

/-- R119: forward filtering then reconstruction gives the true bytes: if each encoded byte is the true
byte minus the predictor over true neighbours (mod 256), and the row above holds true bytes, the row
step leaves the true row, for every opcode. -/
def Obligations.ReconstructionInvertsTheForwardFilter : Prop :=
  ∀ (s : State) (i : Instr) (tr : Nat → Nat → Nat → Byte), WellFormed s.geometry i →
    s.posY.toNat < s.geometry.height →
    (∀ x k, x < s.geometry.width → k < s.geometry.bpp → 0 < s.posY.toNat →
      s.rasterByte (s.posY.toNat - 1) x k = tr (s.posY.toNat - 1) x k) →
    (∀ x k (hx : x < i.pixels.length), k < s.geometry.bpp →
      lane i.pixels[x] k = tr s.posY.toNat x k -
        predictor s.params.paethWiden (opcodeByte i)
          (if x > 0 then tr s.posY.toNat (x - 1) k else 0)
          (if s.posY.toNat > 0 then tr (s.posY.toNat - 1) x k else 0)
          (if x > 0 ∧ s.posY.toNat > 0 then tr (s.posY.toNat - 1) (x - 1) k else 0)) →
    ∃ t, exec i s = .next t ∧ ∀ x k, x < s.geometry.width → k < s.geometry.bpp →
      t.rasterByte s.posY.toNat x k = tr s.posY.toNat x k

/-! ### The operands and the predictors -/

/-- R107, R21, R22: loading the operands for column `x` puts the encoded pixel in X, the pixel to the
left in A, the pixel above in B and the pixel above and to the left in C, lane by lane, a neighbour
outside the raster reading as 0; under RGB lane 3 of each register is as before (log 15); POS_X is `x`,
and nothing else changes. -/
def Obligations.OperandRegistersHoldTheNeighbours : Prop :=
  ∀ (s : State) (x : Nat) (enc : Pixel) (k : Nat), enc.length = s.geometry.bpp → k < s.geometry.bpp →
    lane ((loadOperands s x enc).regX.pixel s.geometry) k = lane enc k ∧
    lane ((loadOperands s x enc).regA.pixel s.geometry) k =
      (if x > 0 then s.rasterByte s.posY.toNat (x - 1) k else 0) ∧
    lane ((loadOperands s x enc).regB.pixel s.geometry) k =
      (if s.posY.toNat > 0 then s.rasterByte (s.posY.toNat - 1) x k else 0) ∧
    lane ((loadOperands s x enc).regC.pixel s.geometry) k =
      (if x > 0 ∧ s.posY.toNat > 0 then s.rasterByte (s.posY.toNat - 1) (x - 1) k else 0) ∧
    (s.cfgColor = .rgb →
      (loadOperands s x enc).regX.lane3 = s.regX.lane3 ∧ (loadOperands s x enc).regA.lane3 = s.regA.lane3 ∧
      (loadOperands s x enc).regB.lane3 = s.regB.lane3 ∧ (loadOperands s x enc).regC.lane3 = s.regC.lane3) ∧
    loadOperands s x enc =
      { s with
        posX := BitVec.ofNat 32 x
        regX := (loadOperands s x enc).regX
        regA := (loadOperands s x enc).regA
        regB := (loadOperands s x enc).regB
        regC := (loadOperands s x enc).regC }

/-- R114: the Paeth predictor is one of its three operands; the distance of its widened value from
`a' + b' - c'` is the least of the three; and among operands at the least distance `a` comes before
`b` and `b` before `c`. A byte is widened to its value 0 to 255 under `ZEXT`, and to its two's
complement value under `SEXT8`. -/
def Obligations.PaethChoosesTheNearestCandidate : Prop :=
  ∀ (w : PaethWiden) (a b c : Byte),
    let p := widen w a + widen w b - widen w c
    let d := fun v : Byte => |p - widen w v|
    widen .zext a = a.toNat ∧ widen .sext8 a = (if a.toNat < 128 then (a.toNat : Int) else a.toNat - 256) ∧
    (paeth w a b c = a ∨ paeth w a b c = b ∨ paeth w a b c = c) ∧
    d (paeth w a b c) ≤ d a ∧ d (paeth w a b c) ≤ d b ∧ d (paeth w a b c) ≤ d c ∧
    (d a ≤ d b → d a ≤ d c → paeth w a b c = a) ∧
    (d b < d a → d b ≤ d c → paeth w a b c = b) ∧
    (d c < d a → d c < d b → paeth w a b c = c)

/-- R113, U1: three equal neighbours give their value under both widenings; the two widenings agree
where all three operands are below 128. -/
def Obligations.PaethWideningsAgreeBelow128 : Prop :=
  (∀ (w : PaethWiden) (v : Byte), paeth w v v v = v) ∧
  ∀ a b c : Byte, a.toNat < 128 → b.toNat < 128 → c.toNat < 128 → paeth .zext a b c = paeth .sext8 a b c

/-- R115: `avg(a, b)` is the floor of half the exact sum; it is symmetric, and `avg(a, a) = a`. -/
def Obligations.AverageIsTheExactFloor : Prop :=
  ∀ a b : Byte, (avg a b).toNat = (a.toNat + b.toNat) / 2 ∧ avg a b = avg b a ∧ avg a a = a

/-! ### LOAD -/

/-- R96: a LOAD step whose record IN holds whole copies the filter-type byte, unchecked, and the pixels,
unchanged; IN_POS moves by `REC_LEN` and POS_Y by 1; nothing else changes, and no other byte of FT or
RASTER. -/
def Obligations.LoadStepFetchesOneRecord : Prop :=
  ∀ s : State, s.hostQueue = [] → s.phase = .load → s.posY.toNat < s.geometry.height →
    s.inPos.toNat + s.geometry.recLen ≤ s.inLen.toNat →
    ∃ t, step s = .next t ∧
      t.readByte .ft s.posY.toNat = s.readByte .input s.inPos.toNat ∧
      (∀ x k, x < s.geometry.width → k < s.geometry.bpp →
        t.rasterByte s.posY.toNat x k = s.readByte .input (s.inPos.toNat + 1 + x * s.geometry.bpp + k)) ∧
      t.inPos.toNat = s.inPos.toNat + s.geometry.recLen ∧
      t.posY.toNat = s.posY.toNat + 1 ∧
      t = { s with ft := t.ft, raster := t.raster, inPos := t.inPos, posY := t.posY } ∧
      (∀ y, y ≠ s.posY.toNat → t.readByte .ft y = s.readByte .ft y) ∧
      ∀ a, (∀ x k, x < s.geometry.width → k < s.geometry.bpp →
          a ≠ rasterAddr s.geometry s.posY.toNat x k) →
        t.readByte .raster a = s.readByte .raster a

/-- R97: under a legal configuration a LOAD step whose record IN does not hold whole is a fault: a next
state in FAULT with code 1 and the two byte counts, the position, the counters, the configuration and
OUT as before. -/
def Obligations.TruncatedInputEntersFault : Prop :=
  ∀ s : State, s.hostQueue = [] → s.phase = .load → s.posY.toNat < s.geometry.height → s.legal = true →
    s.inLen.toNat < s.inPos.toNat + s.geometry.recLen →
    ∃ t, step s = .next t ∧ t.phase = .fault ∧ t.faultCode = 1 ∧ t.faultValue = 0 ∧
      t.faultExpected.toNat = s.geometry.expectedLen ∧ t.faultActual = s.inLen ∧ t.posY = s.posY ∧
      t.posX = s.posX ∧ t.inPos = s.inPos ∧ t.outLen = s.outLen ∧ t.outBytes = s.outBytes ∧
      t.geometry = s.geometry ∧ t.inLen = s.inLen ∧ t.input = s.input ∧ t.params = s.params

/-- R99: with every row done LOAD gives way to RECON at row 0, and RECON to EMIT at row `H` (the
transition of R118); nothing else changes. Before every row is done neither phase gives way. -/
def Obligations.PhasesFollowOneAnother : Prop :=
  ∀ s : State, s.hostQueue = [] →
    (s.posY.toNat = s.geometry.height →
      (s.phase = .load → step s = .next { s with phase := .recon, posY := 0, posX := 0 }) ∧
      (s.phase = .recon → step s = .next { s with phase := .emit, posY := s.cfgHeight, posX := 0 })) ∧
    (s.posY.toNat < s.geometry.height → ∀ t, step s = .next t →
      (s.phase = .load → t.phase = .load ∨ t.phase = .fault) ∧
      (s.phase = .recon → t.phase = .recon ∨ t.phase = .fault))

/-! ### EMIT -/

/-- R141, R142: the first step of EMIT appends the 54 header bytes and changes nothing else. The bytes
0x42 0x4D of the magic and the widths of the info-header fields are those of log 14: the spec gives
them from general knowledge (U8, U9). -/
def Obligations.EmitWritesTheHeaderFirst : Prop :=
  ∀ s : State, s.hostQueue = [] → s.phase = .emit → s.outLen = 0 →
    let size := 3 * (s.geometry.height * s.geometry.width)
    ∃ t, step s = .next t ∧ t.outLen = 54 ∧ t = { s with out := t.out, outLen := t.outLen } ∧
      t.outBytes =
        [0x42, 0x4D] ++ le32 (54 + size) ++ [0x00, 0x00, 0x00, 0x00] ++ [0x36, 0x00, 0x00, 0x00] ++
        [0x28, 0x00, 0x00, 0x00] ++ le32 s.geometry.width ++ le32 s.geometry.height ++ [0x01, 0x00] ++
        [0x18, 0x00] ++ [0x00, 0x00, 0x00, 0x00] ++ le32 size ++ List.replicate 16 0x00

/-- R14, R56: `le32` is the four bytes of a number below 2^32, least significant first. -/
def Obligations.Le32IsLittleEndian : Prop :=
  ∀ v : Nat, v < 2 ^ 32 → ∃ b0 b1 b2 b3 : Byte, le32 v = [b0, b1, b2, b3] ∧
    b0.toNat + 256 * b1.toNat + 65536 * b2.toNat + 16777216 * b3.toNat = v

/-- R145, R149: with a pixel of the row left, EMIT appends blue, green and red of the pixel POS_X of the
row POS_Y - 1, drops its alpha, moves POS_X by 1, and changes nothing else. -/
def Obligations.EmitWritesBlueGreenRed : Prop :=
  ∀ s : State, s.hostQueue = [] → s.phase = .emit → 54 ≤ s.outLen → 0 < s.posY.toNat →
    s.posX.toNat < s.geometry.width →
    ∃ t, step s = .next t ∧
      t.outBytes = s.outBytes ++ [s.rasterByte (s.posY.toNat - 1) s.posX.toNat 2,
        s.rasterByte (s.posY.toNat - 1) s.posX.toNat 1, s.rasterByte (s.posY.toNat - 1) s.posX.toNat 0] ∧
      t.posX.toNat = s.posX.toNat + 1 ∧
      t = { s with out := t.out, outLen := s.outLen + 3, posX := t.posX }

/-- R146, R147: after the last pixel of a row EMIT appends `(4 - rowBytes mod 4) mod 4` zero bytes, the
row length being that of the output under `OUTPUT_DEPTH` and that of the source under `SOURCE_DEPTH`;
it moves to the row before at column 0, and changes nothing else. -/
def Obligations.EmitPadsTheRow : Prop :=
  ∀ s : State, s.hostQueue = [] → s.phase = .emit → 54 ≤ s.outLen → 0 < s.posY.toNat →
    s.posX.toNat = s.geometry.width →
    let rowBytes := match s.params.padRule with
      | .outputDepth => 3 * s.geometry.width
      | .sourceDepth => s.geometry.width * s.geometry.bpp
    let pad := (4 - rowBytes % 4) % 4
    ∃ t, step s = .next t ∧
      t.outBytes = s.outBytes ++ List.replicate pad 0 ∧
      t.posY.toNat + 1 = s.posY.toNat ∧
      t = { s with
        out := t.out
        outLen := s.outLen + pad
        posX := 0
        posY := t.posY }

/-- R146, R147: under `OUTPUT_DEPTH` the padding is `W mod 4` bytes and makes every row a multiple of 4
long; under `SOURCE_DEPTH` it is the same for RGB and none for RGBA. -/
def Obligations.PaddingMakesRowsMultiplesOfFour : Prop :=
  ∀ g : Geometry, g.pad .outputDepth = g.width % 4 ∧ (3 * g.width + g.pad .outputDepth) % 4 = 0 ∧
    (g.color = .rgb → g.pad .sourceDepth = g.width % 4) ∧ (g.color = .rgba → g.pad .sourceDepth = 0)

/-- R149: with no row left EMIT moves to DONE and changes nothing else. -/
def Obligations.EmitEndsInDone : Prop :=
  ∀ s : State, s.hostQueue = [] → s.phase = .emit → 54 ≤ s.outLen → s.posY = 0 →
    step s = .next { s with phase := .done, posY := 0, posX := 0 }

/-! ### Memory -/

/-- R64, R59: a pixel written is the pixel read, every byte outside it is as it was, and the space keeps
its canonical form. -/
def Obligations.PixelWriteIsReadBack : Prop :=
  ∀ (s : State) (y x : Nat) (p : Pixel), p.length = s.geometry.bpp →
    (s.writePixel y x p).readPixel y x = p ∧
    (∀ a, (∀ k, k < s.geometry.bpp → a ≠ rasterAddr s.geometry y x k) →
      (s.writePixel y x p).readByte .raster a = s.readByte .raster a) ∧
    (s.raster.wf → (s.writePixel y x p).raster.wf)

/-- R53: with columns inside the row and channels inside the pixel, no two bytes of RASTER share an
address, and the addresses of the raster fill its size (log 9: the linear address is the model's
choice). -/
def Obligations.RasterAddressesAreDistinct : Prop :=
  ∀ (g : Geometry) (y x k y' x' k' : Nat), x < g.width → k < g.bpp → x' < g.width → k' < g.bpp →
    (rasterAddr g y x k = rasterAddr g y' x' k' → y = y' ∧ x = x' ∧ k = k') ∧
    (y < g.height → rasterAddr g y x k < g.height * g.width * g.bpp)

/-- R54: during a run and after it, a step that is no RESET adds bytes at the end of OUT or leaves it: no
byte of OUT is rewritten. -/
def Obligations.OutIsAppendOnly : Prop :=
  ∀ s t : State, s.phase ≠ .idle → ¬ ResetPending s → step s = .next t →
    ∃ bs, t.outBytes = s.outBytes ++ bs ∧ t.outLen = s.outLen + bs.length

/-- R55, R51, R150: the sequencer never writes IN; it writes FT in LOAD only, RASTER in LOAD and RECON
only, and OUT in EMIT only. Of FT and RASTER nothing is said after a fault (R170). -/
def Obligations.StepsWriteOnlyTheirSpaces : Prop :=
  ∀ s t : State, s.hostQueue = [] → step s = .next t →
    t.input = s.input ∧
    (t.phase ≠ .fault → s.phase ≠ .load → t.ft = s.ft) ∧
    (t.phase ≠ .fault → s.phase = .emit → t.raster = s.raster) ∧
    (s.phase ≠ .emit → t.out = s.out ∧ t.outLen = s.outLen)

/-- R47, R9: no step changes a parameter of the implementation. -/
def Obligations.ParametersNeverChange : Prop :=
  ∀ s t : State, step s = .next t → t.params = s.params

/-! ### Registers, commands and the end of a run -/

/-- R48: the state after reset, as far as the table gives a value: IDLE, every position, counter,
configuration and fault register 0, RGB, OUT empty, STATUS 0; and it is a legal configuration. -/
def Obligations.ResetStateIsTheTable : Prop :=
  State.reset.phase = .idle ∧ State.reset.posY = 0 ∧ State.reset.posX = 0 ∧ State.reset.inPos = 0 ∧
  State.reset.outLen = 0 ∧ State.reset.cfgWidth = 0 ∧ State.reset.cfgHeight = 0 ∧
  State.reset.cfgColor = .rgb ∧ State.reset.inLen = 0 ∧ State.reset.readReg .status = 0 ∧
  State.reset.faultCode = 0 ∧ State.reset.faultValue = 0 ∧ State.reset.faultExpected = 0 ∧
  State.reset.faultActual = 0 ∧ State.reset.outBytes = [] ∧ State.reset.legal = true

/-- R185, R35: RESET is accepted in every phase, and with START written too it is RESET alone: every
register of the table of R48 is at its value and OUT is empty; the parameters stay (R47). The model's
choice, and no rule of the spec: no byte of FT, RASTER or IN stays listed, R48 leaving those contents
unspecified (log 3), and what the host still has pending stays (log 7). -/
def Obligations.ResetIsAcceptedInEveryPhase : Prop :=
  ∀ (s : State) (v : Word) (rest : List HostOp), s.hostQueue = .write .ctrl v :: rest → v.getLsbD 1 = true →
    ∃ t, step s = .next t ∧ t.phase = .idle ∧ t.posY = 0 ∧ t.posX = 0 ∧ t.inPos = 0 ∧ t.outLen = 0 ∧
      t.cfgWidth = 0 ∧ t.cfgHeight = 0 ∧ t.cfgColor = .rgb ∧ t.inLen = 0 ∧ t.faultCode = 0 ∧
      t.faultValue = 0 ∧ t.faultExpected = 0 ∧ t.faultActual = 0 ∧ t.outBytes = [] ∧ t.input.cells = [] ∧
      t.ft.cells = [] ∧ t.raster.cells = [] ∧ t.params = s.params ∧ t.hostQueue = rest

/-- R188, R10: START is accepted in IDLE under a legal configuration and sets the position, IN_POS and
OUT_LEN to the start of LOAD with OUT empty, and the run then agrees with the reference; under an
illegal configuration it is refused (log 6); in every other phase it changes nothing. The operation
served leaves the host's queue, the rest of which stays (log 7). -/
def Obligations.StartIsAcceptedInIdleOnly : Prop :=
  ∀ (s : State) (v : Word) (rest : List HostOp), s.hostQueue = .write .ctrl v :: rest →
    v.getLsbD 1 = false → v.getLsbD 0 = true →
    (s.phase = .idle → s.legal = true → ∃ t, step s = .next t ∧
      t = { s with
        phase := .load
        posY := 0
        posX := 0
        inPos := 0
        outLen := 0
        out := Memory.empty
        hostQueue := rest } ∧ FollowsReference t) ∧
    (s.phase = .idle → s.legal = false → step s = .refused .illegalConfiguration) ∧
    (s.phase ≠ .idle → step s = .next { s with hostQueue := rest })

/-- R30, R31 to R34: a write of CFG_WIDTH, CFG_HEIGHT, CFG_COLOR (bit 0) or IN_LEN takes effect in IDLE
and is ignored in every other phase. -/
def Obligations.ConfigurationIsWrittenInIdleOnly : Prop :=
  ∀ (s : State) (v : Word) (r : Reg) (rest : List HostOp), s.hostQueue = .write r v :: rest →
    (s.phase = .idle →
      (r = .cfgWidth → step s = .next { s with hostQueue := rest, cfgWidth := v }) ∧
      (r = .cfgHeight → step s = .next { s with hostQueue := rest, cfgHeight := v }) ∧
      (r = .cfgColor → step s =
        .next { s with hostQueue := rest, cfgColor := if v.getLsbD 0 then .rgba else .rgb }) ∧
      (r = .inLen → step s = .next { s with hostQueue := rest, inLen := v })) ∧
    (s.phase ≠ .idle → r = .cfgWidth ∨ r = .cfgHeight ∨ r = .cfgColor ∨ r = .inLen →
      step s = .next { s with hostQueue := rest })

/-- R30: once a run has begun, and after it, no step but RESET changes the configuration. -/
def Obligations.ConfigurationIsFrozenDuringTheRun : Prop :=
  ∀ s t : State, s.phase ≠ .idle → ¬ ResetPending s → step s = .next t →
    t.geometry = s.geometry ∧ t.inLen = s.inLen

/-- R29, R30: a write of a read-only register, in every phase, changes nothing. -/
def Obligations.ReadOnlyRegistersIgnoreWrites : Prop :=
  ∀ (s : State) (v : Word) (r : Reg) (rest : List HostOp), s.hostQueue = .write r v :: rest →
    r ≠ .cfgWidth → r ≠ .cfgHeight → r ≠ .cfgColor → r ≠ .inLen → r ≠ .ctrl →
    step s = .next { s with hostQueue := rest }

/-- R29, R31 to R41: what a read of each of the fourteen registers gives. CFG_WIDTH, CFG_HEIGHT, IN_LEN,
FAULT_EXPECTED, FAULT_ACTUAL, POS_Y, POS_X and IN_POS show their 32 bits; CFG_COLOR shows one bit, 1
for RGBA; CTRL reads 0; STATUS shows the phase number in bits 2 to 0, DONE in bit 3, FAULT in bit 4,
BUSY in bit 5 and 0 above; FAULT_CODE and FAULT_VALUE show 8 bits. OUT_LEN shows the low 32 bits of the
count, the model's reading of a register without a stated width (log 10). -/
def Obligations.RegisterReadsShowTheState : Prop :=
  ∀ s : State, s.readReg .cfgWidth = s.cfgWidth ∧ s.readReg .cfgHeight = s.cfgHeight ∧
    (s.readReg .cfgColor).toNat = (if s.cfgColor = .rgba then 1 else 0) ∧
    s.readReg .inLen = s.inLen ∧ s.readReg .ctrl = 0 ∧
    (s.readReg .status).toNat % 8 = phaseNumber s.phase ∧
    ((s.readReg .status).getLsbD 3 = true ↔ s.phase = .done) ∧
    ((s.readReg .status).getLsbD 4 = true ↔ s.phase = .fault) ∧
    ((s.readReg .status).getLsbD 5 = true ↔ s.phase = .load ∨ s.phase = .recon ∨ s.phase = .emit) ∧
    (s.readReg .status).toNat < 64 ∧
    (s.readReg .faultCode).toNat = s.faultCode.toNat ∧ (s.readReg .faultValue).toNat = s.faultValue.toNat ∧
    s.readReg .faultExpected = s.faultExpected ∧ s.readReg .faultActual = s.faultActual ∧
    s.readReg .posY = s.posY ∧ s.readReg .posX = s.posX ∧ s.readReg .inPos = s.inPos ∧
    (s.readReg .outLen).toNat = s.outLen % 2 ^ 32

/-- R187, R66: bytes the host places in IN, when no run is in progress, are read back from address 0 on,
and nothing else changes; during a run the placement is refused. -/
def Obligations.HostPlacesTheInput : Prop :=
  ∀ (s : State) (bytes : List Byte) (rest : List HostOp), s.hostQueue = .place bytes :: rest →
    (s.busy = false → ∃ t, step s = .next t ∧ t = { s with input := t.input, hostQueue := rest } ∧
      (∀ a (h : a < bytes.length), t.readByte .input a = bytes[a]) ∧
      ∀ a, bytes.length ≤ a → t.readByte .input a = s.readByte .input a) ∧
    (s.busy = true → step s = .refused .hostWritesInputDuringRun)

/-- R171, R189: DONE and FAULT are left by RESET alone: any other step there changes neither the phase,
nor the position, nor the fault registers, nor the configuration, nor OUT. -/
def Obligations.OnlyResetLeavesTheEnd : Prop :=
  ∀ s t : State, Ended s → ¬ ResetPending s → step s = .next t →
    t.phase = s.phase ∧ t.posY = s.posY ∧ t.posX = s.posX ∧ t.inPos = s.inPos ∧ t.outLen = s.outLen ∧
    t.faultCode = s.faultCode ∧ t.faultValue = s.faultValue ∧ t.faultExpected = s.faultExpected ∧
    t.faultActual = s.faultActual ∧ t.geometry = s.geometry ∧ t.inLen = s.inLen ∧ t.outBytes = s.outBytes

/-- R186, R189, R171: in IDLE, DONE and FAULT the sequencer has no step: with no host operation pending
the machine stops, under a name for each (log 5: the stop is the model's form of having no step). -/
def Obligations.NoStepOutsideARun : Prop :=
  ∀ s : State, s.hostQueue = [] →
    (s.phase = .idle → step s = .fault .noStepInIdle) ∧ (s.phase = .done → step s = .fault .noStepInDone) ∧
    (s.phase = .fault → step s = .fault .noStepInFault)

/-- R37, R169: FAULT_CODE is written by fault entry and cleared by RESET, and by nothing else: a step
that changes it ends in FAULT with code 1 or 2, or is RESET and leaves 0. -/
def Obligations.FaultCodeIsWrittenByFaultEntryAlone : Prop :=
  ∀ s t : State, step s = .next t → t.faultCode ≠ s.faultCode →
    ResetPending s ∧ t.faultCode = 0 ∨ t.phase = .fault ∧ (t.faultCode = 1 ∨ t.faultCode = 2)

/-! ### The whole machine -/

/-- The invariant holds after reset (R48). -/
def Obligations.InvariantHoldsAtReset : Prop := Inv State.reset

/-- R23 to R27, R50, R54, R63: every step, of the sequencer or of the host, keeps the invariant: each
space in canonical form, OUT without a gap, FT and RASTER inside their sizes, the position and the
counters as the phase has them. -/
def Obligations.EveryStepKeepsTheInvariant : Prop :=
  ∀ s t : State, Inv s → step s = .next t → Inv t

/-- Log 12: the state a table word is placed in meets the invariant; the model's own convention. -/
def Obligations.PlacedTableWordMeetsTheInvariant : Prop :=
  ∀ (s : State) (nbits w : Nat), tableGeometry.legal s.params = true → Inv (s.withFetchWord nbits w)

/-- R198, R197: while a run is in progress and the host does nothing, a step is always enabled, and it
either enters FAULT or leaves exactly one step less to DONE. -/
def Obligations.EveryRunStepMakesProgress : Prop :=
  ∀ s : State, Inv s → s.busy = true → s.hostQueue = [] →
    ∃ t, step s = .next t ∧ (t.phase = .fault ∨ stepsLeft t + 1 = stepsLeft s)

/-- R100, R118, R122, R140: a run follows the reference: every step of a run keeps FT, RASTER and OUT in
agreement with the reference functions of the input, phase by phase. -/
def Obligations.EveryRunStepFollowsTheReference : Prop :=
  ∀ s t : State, Inv s → FollowsReference s → s.busy = true → step s = .next t → FollowsReference t

/-- R161, R162, R167, R148, R189: a run started by the host under a legal configuration ends. With
fewer bytes than `EXPECTED_LEN` it ends in FAULT with TruncatedInput and the two counts, whatever the
filter-type bytes are; else, with an illegal filter-type byte, in FAULT with the one of the lowest
such row; else in DONE, with `OUT_TOTAL` bytes in OUT, the whole of the reference BMP. -/
def Obligations.EveryRunEndsAsTheReferenceSays : Prop :=
  ∀ (s : State) (v : Word), Inv s → s.phase = .idle → s.legal = true → s.hostQueue = [.write .ctrl v] →
    v.getLsbD 1 = false → v.getLsbD 0 = true →
    ∃ n t, Host.Core.run core n s = .next t ∧
      (s.inLen.toNat < s.geometry.expectedLen →
        t.phase = .fault ∧ t.faultCode = 1 ∧ t.faultExpected.toNat = s.geometry.expectedLen ∧
        t.faultActual = s.inLen ∧ t.outBytes = []) ∧
      (s.geometry.expectedLen ≤ s.inLen.toNat → ∀ y, y < s.geometry.height → FiltersLegal s y →
        4 < (filterByte s.geometry s.inputBytes y).toNat →
        t.phase = .fault ∧ t.faultCode = 2 ∧ t.faultValue = filterByte s.geometry s.inputBytes y ∧
        t.posY.toNat = y ∧ t.outBytes = []) ∧
      (s.geometry.expectedLen ≤ s.inLen.toNat → FiltersLegal s s.geometry.height →
        t.phase = .done ∧ t.faultCode = 0 ∧ t.outLen = s.geometry.outTotal s.params.padRule ∧
        t.outBytes = refBmp s.params s.geometry s.inputBytes)

/-- R132: two RGBA runs that differ in alpha bytes alone take the same steps and have the same output:
every step of a run keeps the two states alike but for alpha bytes, OUT included. -/
def Obligations.AlphaNeverReachesTheOutput : Prop :=
  ∀ s t : State, Inv s → SameButAlpha s t → s.busy = true → s.hostQueue = [] →
    ∃ s' t', step s = .next s' ∧ step t = .next t' ∧ SameButAlpha s' t' ∧ t'.outBytes = s'.outBytes

/-! ### Operations of the host that leave the block to itself -/

/-- R35: a write of CTRL whose two command bits are 0 changes nothing, in every phase and whatever its
other bits are, but that it leaves the host's queue (log 7). -/
def Obligations.ControlWriteWithoutCommandChangesNothing : Prop :=
  ∀ (s : State) (v : Word) (rest : List HostOp), s.hostQueue = .write .ctrl v :: rest →
    v.getLsbD 1 = false → v.getLsbD 0 = false → step s = .next { s with hostQueue := rest }

/-- Log 7, the model's own convention: while a run is in progress, a step with a wait of the host pending
is the sequencer's step with the wait taken off the queue: what the step is with nothing pending,
but that the rest of the queue stays. Outside a run a wait changes nothing else. -/
def Obligations.WaitingLetsTheSequencerMove : Prop :=
  ∀ (s : State) (rest : List HostOp), s.hostQueue = .wait :: rest →
    (s.busy = true →
      step s = sequencerStep { s with hostQueue := rest } ∧
      (∀ t, step { s with hostQueue := [] } = .next t → step s = .next { t with hostQueue := rest }) ∧
      ∀ r, step { s with hostQueue := [] } = .fault r → step s = .fault r) ∧
    (s.busy = false → step s = .next { s with hostQueue := rest })
end

