-- ==== Sys2Proof/Laws/Memory.lean ====
section
/-! SUPPORT. What the operations on one memory space do: read after write, and the canonical form. -/

namespace Sys2Proof.Machine

theorem lookupCell_insertCell_same (a : Nat) (b : Byte) (l : List Host.Cell) :
    lookupCell a (insertCell a b l) = some b := by
  induction l with
  | nil => simp [insertCell, lookupCell]
  | cons c cs ih =>
    unfold insertCell
    split
    · simp [lookupCell]
    · split
      · simp [lookupCell]
      · rename_i h
        simp [lookupCell, ih, show c.1 ≠ a from fun e => h e.symm]

theorem lookupCell_insertCell_ne {a a' : Nat} (h : a' ≠ a) (b : Byte) (l : List Host.Cell) :
    lookupCell a' (insertCell a b l) = lookupCell a' l := by
  induction l with
  | nil => simp [insertCell, lookupCell, h.symm]
  | cons c cs ih =>
    unfold insertCell
    split
    · simp [lookupCell, h.symm]
    · split
      · rename_i e
        simp [lookupCell, h.symm, show c.1 ≠ a' from e ▸ h.symm]
      · simp [lookupCell, ih]

theorem mem_insertCell {a : Nat} {b : Byte} {l : List Host.Cell} {c : Host.Cell} (h : c ∈ insertCell a b l) :
    c = (a, b) ∨ c ∈ l := by
  induction l with
  | nil => simpa [insertCell] using h
  | cons d ds ih =>
    unfold insertCell at h
    split at h
    · simpa using h
    · split at h
      · rcases List.mem_cons.1 h with h | h
        · exact .inl h
        · exact .inr (List.mem_cons_of_mem _ h)
      · rcases List.mem_cons.1 h with h | h
        · exact .inr (h ▸ List.mem_cons_self)
        · exact (ih h).imp_right (List.mem_cons_of_mem _)

theorem insertCell_sorted {a : Nat} {b : Byte} {l : List Host.Cell}
    (h : l.Pairwise fun c d => c.1 < d.1) : (insertCell a b l).Pairwise fun c d => c.1 < d.1 := by
  induction l with
  | nil => simp [insertCell]
  | cons d ds ih =>
    obtain ⟨hd, hds⟩ := List.pairwise_cons.1 h
    unfold insertCell
    split
    · rename_i hlt
      refine List.pairwise_cons.2 ⟨fun c hc => ?_, h⟩
      rcases List.mem_cons.1 hc with rfl | hc
      · exact hlt
      · exact hlt.trans (hd c hc)
    · split
      · rename_i heq
        exact List.pairwise_cons.2 ⟨fun c hc => heq ▸ hd c hc, hds⟩
      · rename_i hlt hne
        refine List.pairwise_cons.2 ⟨fun c hc => ?_, ih hds⟩
        rcases mem_insertCell hc with rfl | hc
        · show d.1 < a
          omega
        · exact hd c hc

@[simp] theorem Memory.read?_empty (a : Nat) : Memory.empty.read? a = none := rfl

@[simp] theorem Memory.wf_empty : Memory.empty.wf := List.Pairwise.nil

@[simp] theorem Memory.read?_write_same (m : Memory) (a : Nat) (b : Byte) : (m.write a b).read? a = some b :=
  lookupCell_insertCell_same a b m.cells

theorem Memory.read?_write_ne (m : Memory) {a a' : Nat} (h : a' ≠ a) (b : Byte) :
    (m.write a b).read? a' = m.read? a' :=
  lookupCell_insertCell_ne h b m.cells

theorem Memory.write_wf {m : Memory} (h : m.wf) (a : Nat) (b : Byte) : (m.write a b).wf :=
  insertCell_sorted h

theorem Memory.writeAll_wf {m : Memory} (h : m.wf) (a : Nat) (bs : List Byte) : (m.writeAll a bs).wf := by
  induction bs generalizing m a with
  | nil => exact h
  | cons b bs ih => exact ih (Memory.write_wf h a b) (a + 1)

theorem Memory.read?_writeAll_outside (m : Memory) {a a' : Nat} {bs : List Byte}
    (h : a' < a ∨ a + bs.length ≤ a') : (m.writeAll a bs).read? a' = m.read? a' := by
  induction bs generalizing m a with
  | nil => rfl
  | cons b bs ih =>
    rw [List.length_cons] at h
    rw [Memory.writeAll, ih _ (by omega), Memory.read?_write_ne _ (by omega)]

theorem Memory.read?_writeAll_inside (m : Memory) {a k : Nat} {bs : List Byte} (h : k < bs.length) :
    (m.writeAll a bs).read? (a + k) = some bs[k] := by
  induction bs generalizing m a k with
  | nil => simp at h
  | cons b bs ih =>
    cases k with
    | zero =>
      rw [Memory.writeAll, Memory.read?_writeAll_outside _ (by omega)]
      simp
    | succ k =>
      have := ih (m.write a b) (a := a + 1) (k := k) (by simpa using h)
      simpa [Memory.writeAll, Nat.add_assoc, Nat.add_comm 1 k] using this

/-- Every address a space lists is one of those that were listed or written. -/
theorem Memory.mem_write {m : Memory} {a : Nat} {b : Byte} {c : Host.Cell} (h : c ∈ (m.write a b).cells) :
    c.1 = a ∨ c ∈ m.cells :=
  (mem_insertCell h).imp_left fun e : c = (a, b) => by rw [e]

theorem Memory.mem_writeAll {m : Memory} {a : Nat} {bs : List Byte} {c : Host.Cell}
    (h : c ∈ (m.writeAll a bs).cells) : (a ≤ c.1 ∧ c.1 < a + bs.length) ∨ c ∈ m.cells := by
  induction bs generalizing m a with
  | nil => exact .inr h
  | cons b bs ih =>
    rw [List.length_cons]
    rcases ih h with h | h
    · exact .inl (by omega)
    · exact (Memory.mem_write h).imp_left fun e => by omega

end Sys2Proof.Machine
end

