-- ==== Sys2Proof/Laws/State.lean ====
section
/-! SUPPORT. One lemma per field per update of the state, so that no later proof unfolds a record update. -/

namespace Sys2Proof.Machine

/-! ### writePixel -/

section
variable (s : State) (y x : Nat) (p : Pixel)

@[simp] theorem writePixel_params : (s.writePixel y x p).params = s.params := rfl
@[simp] theorem writePixel_phase : (s.writePixel y x p).phase = s.phase := rfl
@[simp] theorem writePixel_posY : (s.writePixel y x p).posY = s.posY := rfl
@[simp] theorem writePixel_posX : (s.writePixel y x p).posX = s.posX := rfl
@[simp] theorem writePixel_inPos : (s.writePixel y x p).inPos = s.inPos := rfl
@[simp] theorem writePixel_outLen : (s.writePixel y x p).outLen = s.outLen := rfl
@[simp] theorem writePixel_cfgWidth : (s.writePixel y x p).cfgWidth = s.cfgWidth := rfl
@[simp] theorem writePixel_cfgHeight : (s.writePixel y x p).cfgHeight = s.cfgHeight := rfl
@[simp] theorem writePixel_cfgColor : (s.writePixel y x p).cfgColor = s.cfgColor := rfl
@[simp] theorem writePixel_inLen : (s.writePixel y x p).inLen = s.inLen := rfl
@[simp] theorem writePixel_faultCode : (s.writePixel y x p).faultCode = s.faultCode := rfl
@[simp] theorem writePixel_faultValue : (s.writePixel y x p).faultValue = s.faultValue := rfl
@[simp] theorem writePixel_faultExpected : (s.writePixel y x p).faultExpected = s.faultExpected := rfl
@[simp] theorem writePixel_faultActual : (s.writePixel y x p).faultActual = s.faultActual := rfl
@[simp] theorem writePixel_regX : (s.writePixel y x p).regX = s.regX := rfl
@[simp] theorem writePixel_regA : (s.writePixel y x p).regA = s.regA := rfl
@[simp] theorem writePixel_regB : (s.writePixel y x p).regB = s.regB := rfl
@[simp] theorem writePixel_regC : (s.writePixel y x p).regC = s.regC := rfl
@[simp] theorem writePixel_input : (s.writePixel y x p).input = s.input := rfl
@[simp] theorem writePixel_ft : (s.writePixel y x p).ft = s.ft := rfl
@[simp] theorem writePixel_out : (s.writePixel y x p).out = s.out := rfl
@[simp] theorem writePixel_epoch : (s.writePixel y x p).epoch = s.epoch := rfl
@[simp] theorem writePixel_hostQueue : (s.writePixel y x p).hostQueue = s.hostQueue := rfl

end

/-! ### writeFt -/

section
variable (s : State) (y : Nat) (b : Byte)

@[simp] theorem writeFt_params : (s.writeFt y b).params = s.params := rfl
@[simp] theorem writeFt_phase : (s.writeFt y b).phase = s.phase := rfl
@[simp] theorem writeFt_posY : (s.writeFt y b).posY = s.posY := rfl
@[simp] theorem writeFt_posX : (s.writeFt y b).posX = s.posX := rfl
@[simp] theorem writeFt_inPos : (s.writeFt y b).inPos = s.inPos := rfl
@[simp] theorem writeFt_outLen : (s.writeFt y b).outLen = s.outLen := rfl
@[simp] theorem writeFt_cfgWidth : (s.writeFt y b).cfgWidth = s.cfgWidth := rfl
@[simp] theorem writeFt_cfgHeight : (s.writeFt y b).cfgHeight = s.cfgHeight := rfl
@[simp] theorem writeFt_cfgColor : (s.writeFt y b).cfgColor = s.cfgColor := rfl
@[simp] theorem writeFt_inLen : (s.writeFt y b).inLen = s.inLen := rfl
@[simp] theorem writeFt_faultCode : (s.writeFt y b).faultCode = s.faultCode := rfl
@[simp] theorem writeFt_faultValue : (s.writeFt y b).faultValue = s.faultValue := rfl
@[simp] theorem writeFt_faultExpected : (s.writeFt y b).faultExpected = s.faultExpected := rfl
@[simp] theorem writeFt_faultActual : (s.writeFt y b).faultActual = s.faultActual := rfl
@[simp] theorem writeFt_regX : (s.writeFt y b).regX = s.regX := rfl
@[simp] theorem writeFt_regA : (s.writeFt y b).regA = s.regA := rfl
@[simp] theorem writeFt_regB : (s.writeFt y b).regB = s.regB := rfl
@[simp] theorem writeFt_regC : (s.writeFt y b).regC = s.regC := rfl
@[simp] theorem writeFt_input : (s.writeFt y b).input = s.input := rfl
@[simp] theorem writeFt_raster : (s.writeFt y b).raster = s.raster := rfl
@[simp] theorem writeFt_out : (s.writeFt y b).out = s.out := rfl
@[simp] theorem writeFt_epoch : (s.writeFt y b).epoch = s.epoch := rfl
@[simp] theorem writeFt_hostQueue : (s.writeFt y b).hostQueue = s.hostQueue := rfl

end

/-! ### appendOut -/

section
variable (s : State) (bs : List Byte)

@[simp] theorem appendOut_params : (s.appendOut bs).params = s.params := rfl
@[simp] theorem appendOut_phase : (s.appendOut bs).phase = s.phase := rfl
@[simp] theorem appendOut_posY : (s.appendOut bs).posY = s.posY := rfl
@[simp] theorem appendOut_posX : (s.appendOut bs).posX = s.posX := rfl
@[simp] theorem appendOut_inPos : (s.appendOut bs).inPos = s.inPos := rfl
@[simp] theorem appendOut_cfgWidth : (s.appendOut bs).cfgWidth = s.cfgWidth := rfl
@[simp] theorem appendOut_cfgHeight : (s.appendOut bs).cfgHeight = s.cfgHeight := rfl
@[simp] theorem appendOut_cfgColor : (s.appendOut bs).cfgColor = s.cfgColor := rfl
@[simp] theorem appendOut_inLen : (s.appendOut bs).inLen = s.inLen := rfl
@[simp] theorem appendOut_faultCode : (s.appendOut bs).faultCode = s.faultCode := rfl
@[simp] theorem appendOut_faultValue : (s.appendOut bs).faultValue = s.faultValue := rfl
@[simp] theorem appendOut_faultExpected : (s.appendOut bs).faultExpected = s.faultExpected := rfl
@[simp] theorem appendOut_faultActual : (s.appendOut bs).faultActual = s.faultActual := rfl
@[simp] theorem appendOut_regX : (s.appendOut bs).regX = s.regX := rfl
@[simp] theorem appendOut_regA : (s.appendOut bs).regA = s.regA := rfl
@[simp] theorem appendOut_regB : (s.appendOut bs).regB = s.regB := rfl
@[simp] theorem appendOut_regC : (s.appendOut bs).regC = s.regC := rfl
@[simp] theorem appendOut_input : (s.appendOut bs).input = s.input := rfl
@[simp] theorem appendOut_ft : (s.appendOut bs).ft = s.ft := rfl
@[simp] theorem appendOut_raster : (s.appendOut bs).raster = s.raster := rfl
@[simp] theorem appendOut_epoch : (s.appendOut bs).epoch = s.epoch := rfl
@[simp] theorem appendOut_hostQueue : (s.appendOut bs).hostQueue = s.hostQueue := rfl

end

/-! ### loadOperands -/

section
variable (s : State) (x : Nat) (enc : Pixel)

@[simp] theorem loadOperands_params : (loadOperands s x enc).params = s.params := rfl
@[simp] theorem loadOperands_phase : (loadOperands s x enc).phase = s.phase := rfl
@[simp] theorem loadOperands_posY : (loadOperands s x enc).posY = s.posY := rfl
@[simp] theorem loadOperands_inPos : (loadOperands s x enc).inPos = s.inPos := rfl
@[simp] theorem loadOperands_outLen : (loadOperands s x enc).outLen = s.outLen := rfl
@[simp] theorem loadOperands_cfgWidth : (loadOperands s x enc).cfgWidth = s.cfgWidth := rfl
@[simp] theorem loadOperands_cfgHeight : (loadOperands s x enc).cfgHeight = s.cfgHeight := rfl
@[simp] theorem loadOperands_cfgColor : (loadOperands s x enc).cfgColor = s.cfgColor := rfl
@[simp] theorem loadOperands_inLen : (loadOperands s x enc).inLen = s.inLen := rfl
@[simp] theorem loadOperands_faultCode : (loadOperands s x enc).faultCode = s.faultCode := rfl
@[simp] theorem loadOperands_faultValue : (loadOperands s x enc).faultValue = s.faultValue := rfl
@[simp] theorem loadOperands_faultExpected : (loadOperands s x enc).faultExpected = s.faultExpected := rfl
@[simp] theorem loadOperands_faultActual : (loadOperands s x enc).faultActual = s.faultActual := rfl
@[simp] theorem loadOperands_input : (loadOperands s x enc).input = s.input := rfl
@[simp] theorem loadOperands_ft : (loadOperands s x enc).ft = s.ft := rfl
@[simp] theorem loadOperands_raster : (loadOperands s x enc).raster = s.raster := rfl
@[simp] theorem loadOperands_out : (loadOperands s x enc).out = s.out := rfl
@[simp] theorem loadOperands_epoch : (loadOperands s x enc).epoch = s.epoch := rfl
@[simp] theorem loadOperands_hostQueue : (loadOperands s x enc).hostQueue = s.hostQueue := rfl

end

/-! ### reconPixel -/

section
variable (f : Pixel → Pixel → Pixel → Pixel → Pixel) (x : Nat) (enc : Pixel) (s : State)

@[simp] theorem reconPixel_params : (reconPixel f x enc s).params = s.params := rfl
@[simp] theorem reconPixel_phase : (reconPixel f x enc s).phase = s.phase := rfl
@[simp] theorem reconPixel_posY : (reconPixel f x enc s).posY = s.posY := rfl
@[simp] theorem reconPixel_inPos : (reconPixel f x enc s).inPos = s.inPos := rfl
@[simp] theorem reconPixel_outLen : (reconPixel f x enc s).outLen = s.outLen := rfl
@[simp] theorem reconPixel_cfgWidth : (reconPixel f x enc s).cfgWidth = s.cfgWidth := rfl
@[simp] theorem reconPixel_cfgHeight : (reconPixel f x enc s).cfgHeight = s.cfgHeight := rfl
@[simp] theorem reconPixel_cfgColor : (reconPixel f x enc s).cfgColor = s.cfgColor := rfl
@[simp] theorem reconPixel_inLen : (reconPixel f x enc s).inLen = s.inLen := rfl
@[simp] theorem reconPixel_faultCode : (reconPixel f x enc s).faultCode = s.faultCode := rfl
@[simp] theorem reconPixel_faultValue : (reconPixel f x enc s).faultValue = s.faultValue := rfl
@[simp] theorem reconPixel_faultExpected : (reconPixel f x enc s).faultExpected = s.faultExpected := rfl
@[simp] theorem reconPixel_faultActual : (reconPixel f x enc s).faultActual = s.faultActual := rfl
@[simp] theorem reconPixel_input : (reconPixel f x enc s).input = s.input := rfl
@[simp] theorem reconPixel_ft : (reconPixel f x enc s).ft = s.ft := rfl
@[simp] theorem reconPixel_out : (reconPixel f x enc s).out = s.out := rfl
@[simp] theorem reconPixel_epoch : (reconPixel f x enc s).epoch = s.epoch := rfl
@[simp] theorem reconPixel_hostQueue : (reconPixel f x enc s).hostQueue = s.hostQueue := rfl

end

/-! ### loadEnd -/

section
variable (s : State)

@[simp] theorem loadEnd_params : (loadEnd s).params = s.params := rfl
@[simp] theorem loadEnd_inPos : (loadEnd s).inPos = s.inPos := rfl
@[simp] theorem loadEnd_outLen : (loadEnd s).outLen = s.outLen := rfl
@[simp] theorem loadEnd_cfgWidth : (loadEnd s).cfgWidth = s.cfgWidth := rfl
@[simp] theorem loadEnd_cfgHeight : (loadEnd s).cfgHeight = s.cfgHeight := rfl
@[simp] theorem loadEnd_cfgColor : (loadEnd s).cfgColor = s.cfgColor := rfl
@[simp] theorem loadEnd_inLen : (loadEnd s).inLen = s.inLen := rfl
@[simp] theorem loadEnd_faultCode : (loadEnd s).faultCode = s.faultCode := rfl
@[simp] theorem loadEnd_faultValue : (loadEnd s).faultValue = s.faultValue := rfl
@[simp] theorem loadEnd_faultExpected : (loadEnd s).faultExpected = s.faultExpected := rfl
@[simp] theorem loadEnd_faultActual : (loadEnd s).faultActual = s.faultActual := rfl
@[simp] theorem loadEnd_regX : (loadEnd s).regX = s.regX := rfl
@[simp] theorem loadEnd_regA : (loadEnd s).regA = s.regA := rfl
@[simp] theorem loadEnd_regB : (loadEnd s).regB = s.regB := rfl
@[simp] theorem loadEnd_regC : (loadEnd s).regC = s.regC := rfl
@[simp] theorem loadEnd_input : (loadEnd s).input = s.input := rfl
@[simp] theorem loadEnd_ft : (loadEnd s).ft = s.ft := rfl
@[simp] theorem loadEnd_raster : (loadEnd s).raster = s.raster := rfl
@[simp] theorem loadEnd_out : (loadEnd s).out = s.out := rfl
@[simp] theorem loadEnd_epoch : (loadEnd s).epoch = s.epoch := rfl
@[simp] theorem loadEnd_hostQueue : (loadEnd s).hostQueue = s.hostQueue := rfl

end

/-! ### reconEnd -/

section
variable (s : State)

@[simp] theorem reconEnd_params : (reconEnd s).params = s.params := rfl
@[simp] theorem reconEnd_inPos : (reconEnd s).inPos = s.inPos := rfl
@[simp] theorem reconEnd_outLen : (reconEnd s).outLen = s.outLen := rfl
@[simp] theorem reconEnd_cfgWidth : (reconEnd s).cfgWidth = s.cfgWidth := rfl
@[simp] theorem reconEnd_cfgHeight : (reconEnd s).cfgHeight = s.cfgHeight := rfl
@[simp] theorem reconEnd_cfgColor : (reconEnd s).cfgColor = s.cfgColor := rfl
@[simp] theorem reconEnd_inLen : (reconEnd s).inLen = s.inLen := rfl
@[simp] theorem reconEnd_faultCode : (reconEnd s).faultCode = s.faultCode := rfl
@[simp] theorem reconEnd_faultValue : (reconEnd s).faultValue = s.faultValue := rfl
@[simp] theorem reconEnd_faultExpected : (reconEnd s).faultExpected = s.faultExpected := rfl
@[simp] theorem reconEnd_faultActual : (reconEnd s).faultActual = s.faultActual := rfl
@[simp] theorem reconEnd_regX : (reconEnd s).regX = s.regX := rfl
@[simp] theorem reconEnd_regA : (reconEnd s).regA = s.regA := rfl
@[simp] theorem reconEnd_regB : (reconEnd s).regB = s.regB := rfl
@[simp] theorem reconEnd_regC : (reconEnd s).regC = s.regC := rfl
@[simp] theorem reconEnd_input : (reconEnd s).input = s.input := rfl
@[simp] theorem reconEnd_ft : (reconEnd s).ft = s.ft := rfl
@[simp] theorem reconEnd_raster : (reconEnd s).raster = s.raster := rfl
@[simp] theorem reconEnd_out : (reconEnd s).out = s.out := rfl
@[simp] theorem reconEnd_epoch : (reconEnd s).epoch = s.epoch := rfl
@[simp] theorem reconEnd_hostQueue : (reconEnd s).hostQueue = s.hostQueue := rfl

end

/-! ### emitHeader -/

section
variable (s : State)

@[simp] theorem emitHeader_params : (emitHeader s).params = s.params := rfl
@[simp] theorem emitHeader_phase : (emitHeader s).phase = s.phase := rfl
@[simp] theorem emitHeader_posY : (emitHeader s).posY = s.posY := rfl
@[simp] theorem emitHeader_posX : (emitHeader s).posX = s.posX := rfl
@[simp] theorem emitHeader_inPos : (emitHeader s).inPos = s.inPos := rfl
@[simp] theorem emitHeader_cfgWidth : (emitHeader s).cfgWidth = s.cfgWidth := rfl
@[simp] theorem emitHeader_cfgHeight : (emitHeader s).cfgHeight = s.cfgHeight := rfl
@[simp] theorem emitHeader_cfgColor : (emitHeader s).cfgColor = s.cfgColor := rfl
@[simp] theorem emitHeader_inLen : (emitHeader s).inLen = s.inLen := rfl
@[simp] theorem emitHeader_faultCode : (emitHeader s).faultCode = s.faultCode := rfl
@[simp] theorem emitHeader_faultValue : (emitHeader s).faultValue = s.faultValue := rfl
@[simp] theorem emitHeader_faultExpected : (emitHeader s).faultExpected = s.faultExpected := rfl
@[simp] theorem emitHeader_faultActual : (emitHeader s).faultActual = s.faultActual := rfl
@[simp] theorem emitHeader_regX : (emitHeader s).regX = s.regX := rfl
@[simp] theorem emitHeader_regA : (emitHeader s).regA = s.regA := rfl
@[simp] theorem emitHeader_regB : (emitHeader s).regB = s.regB := rfl
@[simp] theorem emitHeader_regC : (emitHeader s).regC = s.regC := rfl
@[simp] theorem emitHeader_input : (emitHeader s).input = s.input := rfl
@[simp] theorem emitHeader_ft : (emitHeader s).ft = s.ft := rfl
@[simp] theorem emitHeader_raster : (emitHeader s).raster = s.raster := rfl
@[simp] theorem emitHeader_epoch : (emitHeader s).epoch = s.epoch := rfl
@[simp] theorem emitHeader_hostQueue : (emitHeader s).hostQueue = s.hostQueue := rfl

end

/-! ### emitPixel -/

section
variable (s : State)

@[simp] theorem emitPixel_params : (emitPixel s).params = s.params := rfl
@[simp] theorem emitPixel_phase : (emitPixel s).phase = s.phase := rfl
@[simp] theorem emitPixel_posY : (emitPixel s).posY = s.posY := rfl
@[simp] theorem emitPixel_inPos : (emitPixel s).inPos = s.inPos := rfl
@[simp] theorem emitPixel_cfgWidth : (emitPixel s).cfgWidth = s.cfgWidth := rfl
@[simp] theorem emitPixel_cfgHeight : (emitPixel s).cfgHeight = s.cfgHeight := rfl
@[simp] theorem emitPixel_cfgColor : (emitPixel s).cfgColor = s.cfgColor := rfl
@[simp] theorem emitPixel_inLen : (emitPixel s).inLen = s.inLen := rfl
@[simp] theorem emitPixel_faultCode : (emitPixel s).faultCode = s.faultCode := rfl
@[simp] theorem emitPixel_faultValue : (emitPixel s).faultValue = s.faultValue := rfl
@[simp] theorem emitPixel_faultExpected : (emitPixel s).faultExpected = s.faultExpected := rfl
@[simp] theorem emitPixel_faultActual : (emitPixel s).faultActual = s.faultActual := rfl
@[simp] theorem emitPixel_regX : (emitPixel s).regX = s.regX := rfl
@[simp] theorem emitPixel_regA : (emitPixel s).regA = s.regA := rfl
@[simp] theorem emitPixel_regB : (emitPixel s).regB = s.regB := rfl
@[simp] theorem emitPixel_regC : (emitPixel s).regC = s.regC := rfl
@[simp] theorem emitPixel_input : (emitPixel s).input = s.input := rfl
@[simp] theorem emitPixel_ft : (emitPixel s).ft = s.ft := rfl
@[simp] theorem emitPixel_raster : (emitPixel s).raster = s.raster := rfl
@[simp] theorem emitPixel_epoch : (emitPixel s).epoch = s.epoch := rfl
@[simp] theorem emitPixel_hostQueue : (emitPixel s).hostQueue = s.hostQueue := rfl

end

/-! ### emitPad -/

section
variable (s : State)

@[simp] theorem emitPad_params : (emitPad s).params = s.params := rfl
@[simp] theorem emitPad_phase : (emitPad s).phase = s.phase := rfl
@[simp] theorem emitPad_inPos : (emitPad s).inPos = s.inPos := rfl
@[simp] theorem emitPad_cfgWidth : (emitPad s).cfgWidth = s.cfgWidth := rfl
@[simp] theorem emitPad_cfgHeight : (emitPad s).cfgHeight = s.cfgHeight := rfl
@[simp] theorem emitPad_cfgColor : (emitPad s).cfgColor = s.cfgColor := rfl
@[simp] theorem emitPad_inLen : (emitPad s).inLen = s.inLen := rfl
@[simp] theorem emitPad_faultCode : (emitPad s).faultCode = s.faultCode := rfl
@[simp] theorem emitPad_faultValue : (emitPad s).faultValue = s.faultValue := rfl
@[simp] theorem emitPad_faultExpected : (emitPad s).faultExpected = s.faultExpected := rfl
@[simp] theorem emitPad_faultActual : (emitPad s).faultActual = s.faultActual := rfl
@[simp] theorem emitPad_regX : (emitPad s).regX = s.regX := rfl
@[simp] theorem emitPad_regA : (emitPad s).regA = s.regA := rfl
@[simp] theorem emitPad_regB : (emitPad s).regB = s.regB := rfl
@[simp] theorem emitPad_regC : (emitPad s).regC = s.regC := rfl
@[simp] theorem emitPad_input : (emitPad s).input = s.input := rfl
@[simp] theorem emitPad_ft : (emitPad s).ft = s.ft := rfl
@[simp] theorem emitPad_raster : (emitPad s).raster = s.raster := rfl
@[simp] theorem emitPad_epoch : (emitPad s).epoch = s.epoch := rfl
@[simp] theorem emitPad_hostQueue : (emitPad s).hostQueue = s.hostQueue := rfl

end

/-! ### emitEnd -/

section
variable (s : State)

@[simp] theorem emitEnd_params : (emitEnd s).params = s.params := rfl
@[simp] theorem emitEnd_inPos : (emitEnd s).inPos = s.inPos := rfl
@[simp] theorem emitEnd_outLen : (emitEnd s).outLen = s.outLen := rfl
@[simp] theorem emitEnd_cfgWidth : (emitEnd s).cfgWidth = s.cfgWidth := rfl
@[simp] theorem emitEnd_cfgHeight : (emitEnd s).cfgHeight = s.cfgHeight := rfl
@[simp] theorem emitEnd_cfgColor : (emitEnd s).cfgColor = s.cfgColor := rfl
@[simp] theorem emitEnd_inLen : (emitEnd s).inLen = s.inLen := rfl
@[simp] theorem emitEnd_faultCode : (emitEnd s).faultCode = s.faultCode := rfl
@[simp] theorem emitEnd_faultValue : (emitEnd s).faultValue = s.faultValue := rfl
@[simp] theorem emitEnd_faultExpected : (emitEnd s).faultExpected = s.faultExpected := rfl
@[simp] theorem emitEnd_faultActual : (emitEnd s).faultActual = s.faultActual := rfl
@[simp] theorem emitEnd_regX : (emitEnd s).regX = s.regX := rfl
@[simp] theorem emitEnd_regA : (emitEnd s).regA = s.regA := rfl
@[simp] theorem emitEnd_regB : (emitEnd s).regB = s.regB := rfl
@[simp] theorem emitEnd_regC : (emitEnd s).regC = s.regC := rfl
@[simp] theorem emitEnd_input : (emitEnd s).input = s.input := rfl
@[simp] theorem emitEnd_ft : (emitEnd s).ft = s.ft := rfl
@[simp] theorem emitEnd_raster : (emitEnd s).raster = s.raster := rfl
@[simp] theorem emitEnd_out : (emitEnd s).out = s.out := rfl
@[simp] theorem emitEnd_epoch : (emitEnd s).epoch = s.epoch := rfl
@[simp] theorem emitEnd_hostQueue : (emitEnd s).hostQueue = s.hostQueue := rfl

end

/-! ### raise -/

section
variable (e : Exn) (s : State)

@[simp] theorem raise_phase : (raise e s).phase = .fault := by cases e <;> rfl
@[simp] theorem raise_params : (raise e s).params = s.params := by cases e <;> rfl
@[simp] theorem raise_posY : (raise e s).posY = s.posY := by cases e <;> rfl
@[simp] theorem raise_posX : (raise e s).posX = s.posX := by cases e <;> rfl
@[simp] theorem raise_inPos : (raise e s).inPos = s.inPos := by cases e <;> rfl
@[simp] theorem raise_outLen : (raise e s).outLen = s.outLen := by cases e <;> rfl
@[simp] theorem raise_cfgWidth : (raise e s).cfgWidth = s.cfgWidth := by cases e <;> rfl
@[simp] theorem raise_cfgHeight : (raise e s).cfgHeight = s.cfgHeight := by cases e <;> rfl
@[simp] theorem raise_cfgColor : (raise e s).cfgColor = s.cfgColor := by cases e <;> rfl
@[simp] theorem raise_inLen : (raise e s).inLen = s.inLen := by cases e <;> rfl
@[simp] theorem raise_regX : (raise e s).regX = s.regX := by cases e <;> rfl
@[simp] theorem raise_regA : (raise e s).regA = s.regA := by cases e <;> rfl
@[simp] theorem raise_regB : (raise e s).regB = s.regB := by cases e <;> rfl
@[simp] theorem raise_regC : (raise e s).regC = s.regC := by cases e <;> rfl
@[simp] theorem raise_input : (raise e s).input = s.input := by cases e <;> rfl
@[simp] theorem raise_ft : (raise e s).ft = s.ft := by cases e <;> rfl
@[simp] theorem raise_raster : (raise e s).raster = s.raster := by cases e <;> rfl
@[simp] theorem raise_out : (raise e s).out = s.out := by cases e <;> rfl
@[simp] theorem raise_epoch : (raise e s).epoch = s.epoch := by cases e <;> rfl
@[simp] theorem raise_hostQueue : (raise e s).hostQueue = s.hostQueue := by cases e <;> rfl

end

@[simp] theorem writePixel_raster (s : State) (y x : Nat) (p : Pixel) :
    (s.writePixel y x p).raster = s.raster.writeAll (rasterAddr s.geometry y x 0) p := rfl
@[simp] theorem writeFt_ft (s : State) (y : Nat) (b : Byte) : (s.writeFt y b).ft = s.ft.write y b := rfl
@[simp] theorem appendOut_out (s : State) (bs : List Byte) :
    (s.appendOut bs).out = s.out.writeAll s.outLen bs := rfl
@[simp] theorem appendOut_outLen (s : State) (bs : List Byte) :
    (s.appendOut bs).outLen = s.outLen + bs.length := rfl
@[simp] theorem loadEnd_phase (s : State) : (loadEnd s).phase = .recon := rfl
@[simp] theorem loadEnd_posY (s : State) : (loadEnd s).posY = 0 := rfl
@[simp] theorem loadEnd_posX (s : State) : (loadEnd s).posX = 0 := rfl
@[simp] theorem reconEnd_phase (s : State) : (reconEnd s).phase = .emit := rfl
@[simp] theorem reconEnd_posY (s : State) : (reconEnd s).posY = s.cfgHeight := rfl
@[simp] theorem reconEnd_posX (s : State) : (reconEnd s).posX = 0 := rfl
@[simp] theorem emitEnd_phase (s : State) : (emitEnd s).phase = .done := rfl
@[simp] theorem emitEnd_posY (s : State) : (emitEnd s).posY = 0 := rfl
@[simp] theorem emitEnd_posX (s : State) : (emitEnd s).posX = 0 := rfl
@[simp] theorem emitPixel_posX (s : State) : (emitPixel s).posX = s.posX + 1 := rfl
@[simp] theorem emitPad_posX (s : State) : (emitPad s).posX = 0 := rfl
@[simp] theorem emitPad_posY (s : State) : (emitPad s).posY = s.posY - 1 := rfl

/-! ### The geometry follows the configuration -/

theorem geometry_eq {s t : State} (hw : t.cfgWidth = s.cfgWidth) (hh : t.cfgHeight = s.cfgHeight)
    (hc : t.cfgColor = s.cfgColor) : t.geometry = s.geometry := by
  simp [State.geometry, hw, hh, hc]

@[simp] theorem writePixel_geometry (s : State) (y x : Nat) (p : Pixel) :
    (s.writePixel y x p).geometry = s.geometry := rfl
@[simp] theorem writeFt_geometry (s : State) (y : Nat) (b : Byte) : (s.writeFt y b).geometry = s.geometry := rfl
@[simp] theorem appendOut_geometry (s : State) (bs : List Byte) : (s.appendOut bs).geometry = s.geometry := rfl
@[simp] theorem loadOperands_geometry (s : State) (x : Nat) (enc : Pixel) :
    (loadOperands s x enc).geometry = s.geometry := rfl
@[simp] theorem reconPixel_geometry (f : Pixel → Pixel → Pixel → Pixel → Pixel) (x : Nat) (enc : Pixel)
    (s : State) : (reconPixel f x enc s).geometry = s.geometry := rfl
@[simp] theorem raise_geometry (e : Exn) (s : State) : (raise e s).geometry = s.geometry := by cases e <;> rfl
@[simp] theorem loadEnd_geometry (s : State) : (loadEnd s).geometry = s.geometry := rfl
@[simp] theorem reconEnd_geometry (s : State) : (reconEnd s).geometry = s.geometry := rfl
@[simp] theorem emitHeader_geometry (s : State) : (emitHeader s).geometry = s.geometry := rfl
@[simp] theorem emitPixel_geometry (s : State) : (emitPixel s).geometry = s.geometry := rfl
@[simp] theorem emitPad_geometry (s : State) : (emitPad s).geometry = s.geometry := rfl
@[simp] theorem emitEnd_geometry (s : State) : (emitEnd s).geometry = s.geometry := rfl

theorem geometry_width (s : State) : s.geometry.width = s.cfgWidth.toNat := rfl
theorem geometry_height (s : State) : s.geometry.height = s.cfgHeight.toNat := rfl
theorem geometry_color (s : State) : s.geometry.color = s.cfgColor := rfl

end Sys2Proof.Machine
end

