-- ==== Sys2Proof/Laws/Ops.lean ====
section
/-! SUPPORT. What the shared operations over the state do: reads and writes of bytes, pixels and OUT. -/

namespace Sys2Proof

theorem ColorType.channels_pos (c : ColorType) : 0 < c.channels := by cases c <;> decide

theorem Geometry.bpp_pos (g : Geometry) : 0 < g.bpp := g.color.channels_pos

theorem Geometry.bpp_cases (g : Geometry) : g.bpp = 3 ∨ g.bpp = 4 := by
  unfold Geometry.bpp
  cases g.color <;> simp [ColorType.channels]

theorem Geometry.recLen_pos (g : Geometry) : 0 < g.recLen := by
  unfold Geometry.recLen
  omega

theorem Geometry.outRowBytes_eq (g : Geometry) : g.outRowBytes = 3 * g.width := by
  unfold Geometry.outRowBytes
  omega

theorem Geometry.imageDataSize_eq (g : Geometry) : g.imageDataSize = 3 * (g.height * g.width) := by
  unfold Geometry.imageDataSize
  omega

theorem Geometry.legal_expectedLen {p : Params} {g : Geometry} (h : g.legal p = true) :
    g.expectedLen < 2 ^ 32 := by
  simp only [Geometry.legal, Bool.and_eq_true, decide_eq_true_eq] at h
  exact h.1.2

namespace Machine

/-! ### Bytes -/

theorem readByte_congr {s t : State} {sp : Space} {a : Nat} (hm : (t.mem sp).read? a = (s.mem sp).read? a)
    (he : t.epoch = s.epoch) : t.readByte sp a = s.readByte sp a := by
  simp [State.readByte, hm, he]

theorem readByte_of_read? {s : State} {sp : Space} {a : Nat} {b : Byte} (h : (s.mem sp).read? a = some b) :
    s.readByte sp a = b := by
  simp [State.readByte, h]

@[simp] theorem mem_input (s : State) : s.mem .input = s.input := rfl
@[simp] theorem mem_ft (s : State) : s.mem .ft = s.ft := rfl
@[simp] theorem mem_raster (s : State) : s.mem .raster = s.raster := rfl
@[simp] theorem mem_out (s : State) : s.mem .out = s.out := rfl

@[simp] theorem readBytes_length (s : State) (sp : Space) (a n : Nat) : (s.readBytes sp a n).length = n := by
  simp [State.readBytes]

theorem readBytes_getElem {s : State} {sp : Space} {a n k : Nat} (h : k < (s.readBytes sp a n).length) :
    (s.readBytes sp a n)[k] = s.readByte sp (a + k) := by
  simp [State.readBytes]

/-! ### Addresses in RASTER -/

theorem rasterAddr_add (g : Geometry) (y x k : Nat) : rasterAddr g y x 0 + k = rasterAddr g y x k := rfl

theorem rasterAddr_inj {g : Geometry} {y x k y' x' k' : Nat} (hx : x < g.width) (hx' : x' < g.width)
    (hk : k < g.bpp) (hk' : k' < g.bpp) (h : rasterAddr g y x k = rasterAddr g y' x' k') :
    y = y' ∧ x = x' ∧ k = k' := by
  unfold rasterAddr at h
  have split : ∀ {n a b r s : Nat}, r < n → s < n → a * n + r = b * n + s → a = b ∧ r = s := by
    intro n a b r s hr hs e
    have hn : 0 < n := by omega
    have q := congrArg (· / n) e
    have m := congrArg (· % n) e
    simp only [Nat.mul_comm _ n, Nat.mul_add_div hn, Nat.div_eq_of_lt hr, Nat.div_eq_of_lt hs,
      Nat.mul_add_mod, Nat.mod_eq_of_lt hr, Nat.mod_eq_of_lt hs, Nat.add_zero] at q m
    exact ⟨q, m⟩
  obtain ⟨e, rfl⟩ := split hk hk' h
  obtain ⟨rfl, rfl⟩ := split hx hx' e
  exact ⟨rfl, rfl, rfl⟩

theorem rasterAddr_lt {g : Geometry} {y x k : Nat} (hy : y < g.height) (hx : x < g.width) (hk : k < g.bpp) :
    rasterAddr g y x k < g.height * g.width * g.bpp := by
  unfold rasterAddr
  have h1 : y * g.width + x + 1 ≤ g.height * g.width := by
    have : (y + 1) * g.width ≤ g.height * g.width := Nat.mul_le_mul_right _ hy
    rw [Nat.add_mul] at this
    omega
  have h2 : (y * g.width + x + 1) * g.bpp ≤ g.height * g.width * g.bpp := Nat.mul_le_mul_right _ h1
  rw [Nat.add_mul] at h2
  omega

/-! ### Pixels -/

@[simp] theorem readPixel_length (s : State) (y x : Nat) : (s.readPixel y x).length = s.geometry.bpp := by
  simp [State.readPixel]

theorem readPixel_getElem {s : State} {y x k : Nat} (h : k < (s.readPixel y x).length) :
    (s.readPixel y x)[k] = s.rasterByte y x k := by
  simp [State.readPixel, readBytes_getElem, State.rasterByte, rasterAddr_add]

theorem lane_of_lt {p : Pixel} {k : Nat} (h : k < p.length) : lane p k = p[k] := by
  simp [lane, List.getD_eq_getElem?_getD, h]

theorem lane_readPixel {s : State} {y x k : Nat} (h : k < s.geometry.bpp) :
    lane (s.readPixel y x) k = s.rasterByte y x k := by
  rw [lane_of_lt (by simpa using h), readPixel_getElem]

theorem lane_zeroPixel (g : Geometry) (k : Nat) : lane (zeroPixel g) k = 0 := by
  unfold lane zeroPixel
  rw [List.getD_eq_getElem?_getD, List.getElem?_replicate]
  split <;> rfl

@[simp] theorem zeroPixel_length (g : Geometry) : (zeroPixel g).length = g.bpp := by simp [zeroPixel]

@[simp] theorem readRow_length (s : State) (y : Nat) : (s.readRow y).length = s.geometry.width := by
  simp [State.readRow]

theorem readRow_getElem {s : State} {y x : Nat} (h : x < (s.readRow y).length) :
    (s.readRow y)[x] = s.readPixel y x := by
  simp [State.readRow]

theorem rasterByte_congr {s t : State} {y x k : Nat} (hg : t.geometry = s.geometry) (he : t.epoch = s.epoch)
    (hm : t.raster.read? (rasterAddr s.geometry y x k) = s.raster.read? (rasterAddr s.geometry y x k)) :
    t.rasterByte y x k = s.rasterByte y x k := by
  simp only [State.rasterByte, hg]
  exact readByte_congr hm he

theorem readPixel_congr {s t : State} {y x : Nat} (hg : t.geometry = s.geometry)
    (h : ∀ k, k < s.geometry.bpp → t.rasterByte y x k = s.rasterByte y x k) :
    t.readPixel y x = s.readPixel y x := by
  refine List.ext_getElem (by simp [hg]) fun k h1 h2 => ?_
  rw [readPixel_getElem, readPixel_getElem, h k (by simpa using h2)]

theorem readRow_congr {s t : State} {y : Nat} (hg : t.geometry = s.geometry)
    (h : ∀ x k, x < s.geometry.width → k < s.geometry.bpp → t.rasterByte y x k = s.rasterByte y x k) :
    t.readRow y = s.readRow y := by
  refine List.ext_getElem (by simp [hg]) fun x h1 h2 => ?_
  rw [readRow_getElem, readRow_getElem]
  exact readPixel_congr hg fun k => h x k (by simpa using h2)

theorem rasterByte_writePixel_same {s : State} {y x k : Nat} {p : Pixel} (h : k < p.length) :
    (s.writePixel y x p).rasterByte y x k = lane p k := by
  rw [lane_of_lt h]
  refine readByte_of_read? ?_
  simpa [rasterAddr_add] using s.raster.read?_writeAll_inside (a := rasterAddr s.geometry y x 0) h

theorem read?_writePixel_outside {s : State} {y x a : Nat} {p : Pixel}
    (h : ∀ k, k < p.length → a ≠ rasterAddr s.geometry y x k) :
    (s.writePixel y x p).raster.read? a = s.raster.read? a := by
  refine Memory.read?_writeAll_outside _ ?_
  by_contra hc
  have := h (a - rasterAddr s.geometry y x 0) (by omega)
  rw [← rasterAddr_add] at this
  omega

theorem rasterByte_writePixel_ne {s : State} {y x y' x' k : Nat} {p : Pixel} (hp : p.length ≤ s.geometry.bpp)
    (hx : x < s.geometry.width) (hx' : x' < s.geometry.width) (hk : k < s.geometry.bpp)
    (h : y' ≠ y ∨ x' ≠ x) : (s.writePixel y x p).rasterByte y' x' k = s.rasterByte y' x' k := by
  refine rasterByte_congr rfl rfl (read?_writePixel_outside fun k' hk' e => ?_)
  have := rasterAddr_inj hx' hx hk (by omega) e
  omega

/-! ### OUT -/

@[simp] theorem outBytes_length (s : State) : s.outBytes.length = s.outLen := by simp [State.outBytes]

/-- Appending keeps every byte of OUT and adds the new ones at the end (R54). -/
theorem outBytes_appendOut (s : State) (bs : List Byte) : (s.appendOut bs).outBytes = s.outBytes ++ bs := by
  refine List.ext_getElem (by simp) fun j h1 h2 => ?_
  simp only [State.outBytes, readBytes_getElem, Nat.zero_add]
  by_cases hj : j < s.outLen
  · rw [List.getElem_append_left (by simpa using hj), readBytes_getElem, Nat.zero_add]
    exact readByte_congr (Memory.read?_writeAll_outside _ (.inl hj)) rfl
  · have hj' : j < s.outLen + bs.length := by simpa using h1
    rw [List.getElem_append_right (by simpa using hj)]
    refine readByte_of_read? ?_
    have := s.out.read?_writeAll_inside (a := s.outLen) (k := j - s.outLen) (bs := bs) (by omega)
    simpa [show s.outLen + (j - s.outLen) = j by omega] using this

theorem insertCell_above {a : Nat} {b : Byte} {l : List Host.Cell} (h : ∀ c ∈ l, c.1 < a) :
    insertCell a b l = l ++ [(a, b)] := by
  induction l with
  | nil => rfl
  | cons c cs ih =>
    have hc := h c List.mem_cons_self
    rw [insertCell, if_neg (by omega), if_neg (by omega), ih fun d hd => h d (List.mem_cons_of_mem _ hd)]
    rfl

theorem map_fst_writeAll {m : Memory} {n : Nat} (bs : List Byte) (h : m.cells.map Prod.fst = List.range n) :
    (m.writeAll n bs).cells.map Prod.fst = List.range (n + bs.length) := by
  induction bs generalizing m n with
  | nil => simpa [Memory.writeAll] using h
  | cons b bs ih =>
    have hlt : ∀ c ∈ m.cells, c.1 < n := fun c hc => by
      have : c.1 ∈ List.range n := h ▸ List.mem_map_of_mem hc
      simpa using this
    have h1 : (m.write n b).cells.map Prod.fst = List.range (n + 1) := by
      show (insertCell n b m.cells).map Prod.fst = _
      rw [insertCell_above hlt, List.map_append, h, List.range_succ]
      rfl
    have := ih h1
    simpa [Memory.writeAll, Nat.add_assoc, Nat.add_comm 1] using this

end Machine

end Sys2Proof
end

