-- ==== Sys2Proof/Laws/Recon.lean ====
section
/-! SUPPORT. What the RECON row step does: its frame, and the row it leaves, in terms of that row itself (R106, R107). -/

namespace Sys2Proof.Machine

/-- A pixel operation keeps the number of channels. -/
def KeepsLength (f : Pixel → Pixel → Pixel → Pixel → Pixel) : Prop :=
  ∀ x a b c, (f x a b c).length = x.length

theorem keepsLength_none : KeepsLength fun x _ _ _ => pixelNone x := fun _ _ _ _ => rfl
theorem keepsLength_sub : KeepsLength fun x a _ _ => pixelSub x a := fun _ _ _ _ => List.length_mapIdx
theorem keepsLength_up : KeepsLength fun x _ b _ => pixelUp x b := fun _ _ _ _ => List.length_mapIdx
theorem keepsLength_average : KeepsLength fun x a b _ => pixelAverage x a b :=
  fun _ _ _ _ => List.length_mapIdx
theorem keepsLength_paeth (w : PaethWiden) : KeepsLength fun x a b c => pixelPaeth w x a b c :=
  fun _ _ _ _ => List.length_mapIdx

/-! ### The lanes of the pixel operations (R134) -/

theorem lane_mapIdx {p : Pixel} {k : Nat} (f : Nat → Byte → Byte) (h : k < p.length) :
    lane (p.mapIdx f) k = f k (lane p k) := by
  rw [lane_of_lt (by simpa using h), List.getElem_mapIdx, lane_of_lt h]

theorem lane_pixelSub {x : Pixel} {k : Nat} (h : k < x.length) (a : Pixel) :
    lane (pixelSub x a) k = lane x k + lane a k := lane_mapIdx _ h
theorem lane_pixelUp {x : Pixel} {k : Nat} (h : k < x.length) (b : Pixel) :
    lane (pixelUp x b) k = lane x k + lane b k := lane_mapIdx _ h
theorem lane_pixelAverage {x : Pixel} {k : Nat} (h : k < x.length) (a b : Pixel) :
    lane (pixelAverage x a b) k = lane x k + avg (lane a k) (lane b k) := lane_mapIdx _ h
theorem lane_pixelPaeth {x : Pixel} {k : Nat} (h : k < x.length) (w : PaethWiden) (a b c : Pixel) :
    lane (pixelPaeth w x a b c) k = lane x k + paeth w (lane a k) (lane b k) (lane c k) := lane_mapIdx _ h

/-! ### Operand registers -/

@[simp] theorem pixel_length (r : OperandReg) (g : Geometry) : (r.pixel g).length = g.bpp := by
  rcases g.bpp_cases with h | h <;> simp [OperandReg.pixel, h]

/-- What a register is loaded with is what it holds (R21). -/
theorem pixel_load {p : Pixel} {g : Geometry} (h : p.length = g.bpp) (r : OperandReg) :
    (r.load p).pixel g = p := by
  rcases g.bpp_cases with hb | hb <;> rw [hb] at h
  · obtain ⟨a, b, c, rfl⟩ := List.length_eq_three.1 h
    simp [OperandReg.pixel, OperandReg.load, hb]
  · match p, h with
    | [a, b, c, d], _ => simp [OperandReg.pixel, OperandReg.load, hb]

/-- A load of a pixel of three channels leaves lane 3 (R21). -/
theorem load_lane3 {p : Pixel} (h : p.length = 3) (r : OperandReg) : (r.load p).lane3 = r.lane3 := by
  obtain ⟨a, b, c, rfl⟩ := List.length_eq_three.1 h
  rfl

@[simp] theorem leftPixel_length (s : State) (y x : Nat) : (leftPixel s y x).length = s.geometry.bpp := by
  unfold leftPixel
  split <;> simp
@[simp] theorem upPixel_length (s : State) (y x : Nat) : (upPixel s y x).length = s.geometry.bpp := by
  unfold upPixel
  split <;> simp
@[simp] theorem upLeftPixel_length (s : State) (y x : Nat) : (upLeftPixel s y x).length = s.geometry.bpp := by
  unfold upLeftPixel
  split <;> simp

theorem lane_leftPixel {s : State} {y x k : Nat} (h : k < s.geometry.bpp) :
    lane (leftPixel s y x) k = if x > 0 then s.rasterByte y (x - 1) k else 0 := by
  unfold leftPixel
  split
  · exact lane_readPixel h
  · exact lane_zeroPixel _ _

theorem lane_upPixel {s : State} {y x k : Nat} (h : k < s.geometry.bpp) :
    lane (upPixel s y x) k = if y > 0 then s.rasterByte (y - 1) x k else 0 := by
  unfold upPixel
  split
  · exact lane_readPixel h
  · exact lane_zeroPixel _ _

theorem lane_upLeftPixel {s : State} {y x k : Nat} (h : k < s.geometry.bpp) :
    lane (upLeftPixel s y x) k = if x > 0 ∧ y > 0 then s.rasterByte (y - 1) (x - 1) k else 0 := by
  unfold upLeftPixel
  split
  · exact lane_readPixel h
  · exact lane_zeroPixel _ _

/-! ### One pixel -/

/-- The pixel step is the replacement of one pixel by `f` of the encoded pixel and the neighbours. -/
theorem reconPixel_raster (f : Pixel → Pixel → Pixel → Pixel → Pixel) {x : Nat} {enc : Pixel} {s : State}
    (h : enc.length = s.geometry.bpp) :
    (reconPixel f x enc s).raster =
      (s.writePixel s.posY.toNat x (f enc (leftPixel s s.posY.toNat x) (upPixel s s.posY.toNat x)
        (upLeftPixel s s.posY.toNat x))).raster := by
  show (State.writePixel (loadOperands s x enc) _ _ _).raster = _
  simp only [writePixel_raster, loadOperands_geometry, loadOperands_raster, loadOperands_posY]
  simp only [loadOperands]
  rw [pixel_load h, pixel_load (leftPixel_length ..), pixel_load (upPixel_length ..),
    pixel_load (upLeftPixel_length ..)]

/-- A pixel step touches the bytes of its own pixel alone, whatever the pixel operation. -/
theorem read?_reconPixel_outside {f : Pixel → Pixel → Pixel → Pixel → Pixel} (hf : KeepsLength f) {x : Nat}
    {enc : Pixel} {s : State} {a : Nat}
    (h : ∀ k, k < s.geometry.bpp → a ≠ rasterAddr s.geometry s.posY.toNat x k) :
    (reconPixel f x enc s).raster.read? a = s.raster.read? a :=
  read?_writePixel_outside (s := loadOperands s x enc) fun k hk => h k (by simpa [hf _ _ _ _] using hk)

/-! ### A row -/

section
variable (f : Pixel → Pixel → Pixel → Pixel → Pixel)

/-- What the pixels of a row leave unchanged: all but POS_X, the operand registers and RASTER. -/
theorem reconFrom_frame (x : Nat) (pix : List Pixel) (s : State) :
    ∃ px rx ra rb rc ras, reconFrom f x pix s =
      { s with posX := px, regX := rx, regA := ra, regB := rb, regC := rc, raster := ras } := by
  induction pix generalizing x s with
  | nil => exact ⟨s.posX, s.regX, s.regA, s.regB, s.regC, s.raster, rfl⟩
  | cons p ps ih =>
    obtain ⟨px, rx, ra, rb, rc, ras, h⟩ := ih (x + 1) (reconPixel f x p s)
    exact ⟨px, rx, ra, rb, rc, ras, by rw [reconFrom, h]; rfl⟩

/-- What a row step leaves unchanged: all but the position, the operand registers and RASTER (R106). -/
theorem reconRow_frame (pix : List Pixel) (s : State) :
    ∃ rx ra rb rc ras, reconRow f pix s =
      { s with
        posX := 0
        posY := s.posY + 1
        regX := rx
        regA := ra
        regB := rb
        regC := rc
        raster := ras } := by
  obtain ⟨px, rx, ra, rb, rc, ras, h⟩ := reconFrom_frame f 0 pix s
  exact ⟨rx, ra, rb, rc, ras, by simp only [reconRow, h]⟩

/-- The pixels of a row neither read nor write the host's queue. -/
theorem reconFrom_withQueue (x : Nat) (pix : List Pixel) (s : State) (q : List HostOp) :
    reconFrom f x pix { s with hostQueue := q } = { reconFrom f x pix s with hostQueue := q } := by
  induction pix generalizing x s with
  | nil => rfl
  | cons p ps ih => exact ih (x + 1) (reconPixel f x p s)

theorem reconFrom_geometry (x : Nat) (pix : List Pixel) (s : State) :
    (reconFrom f x pix s).geometry = s.geometry := by
  obtain ⟨_, _, _, _, _, _, h⟩ := reconFrom_frame f x pix s
  rw [h]
  rfl

theorem reconFrom_posY (x : Nat) (pix : List Pixel) (s : State) : (reconFrom f x pix s).posY = s.posY := by
  obtain ⟨_, _, _, _, _, _, h⟩ := reconFrom_frame f x pix s
  rw [h]

theorem reconFrom_epoch (x : Nat) (pix : List Pixel) (s : State) : (reconFrom f x pix s).epoch = s.epoch := by
  obtain ⟨_, _, _, _, _, _, h⟩ := reconFrom_frame f x pix s
  rw [h]

theorem reconRow_geometry (pix : List Pixel) (s : State) : (reconRow f pix s).geometry = s.geometry := by
  obtain ⟨_, _, _, _, _, h⟩ := reconRow_frame f pix s
  rw [h]
  rfl

theorem reconRow_rasterByte (pix : List Pixel) (s : State) (y x k : Nat) :
    (reconRow f pix s).rasterByte y x k = (reconFrom f 0 pix s).rasterByte y x k := rfl

end

/-- The bytes a row of `n` pixels from column `x` on takes in RASTER row `y`. -/
def InRow (g : Geometry) (y x n a : Nat) : Prop :=
  ∃ j k, j < n ∧ k < g.bpp ∧ a = rasterAddr g y (x + j) k

theorem read?_reconFrom_outside {f : Pixel → Pixel → Pixel → Pixel → Pixel} (hf : KeepsLength f)
    {pix : List Pixel} {x a : Nat} {s : State} (h : ¬ InRow s.geometry s.posY.toNat x pix.length a) :
    (reconFrom f x pix s).raster.read? a = s.raster.read? a := by
  induction pix generalizing x s with
  | nil => rfl
  | cons p ps ih =>
    rw [reconFrom, ih, read?_reconPixel_outside hf]
    · exact fun k hk e => h ⟨0, k, by simp, hk, by simpa using e⟩
    · rintro ⟨j, k, hj, hk, e⟩
      exact h ⟨j + 1, k, by simpa using hj, hk, by simpa [Nat.add_assoc, Nat.add_comm 1 j] using e⟩

/-- A row step leaves every byte of RASTER outside its own row as it was (R106). -/
theorem read?_reconRow_outside {f : Pixel → Pixel → Pixel → Pixel → Pixel} (hf : KeepsLength f)
    {pix : List Pixel} {a : Nat} {s : State} (h : ¬ InRow s.geometry s.posY.toNat 0 pix.length a) :
    (reconRow f pix s).raster.read? a = s.raster.read? a :=
  read?_reconFrom_outside hf h

theorem not_inRow_of_ne {g : Geometry} {y x n y' x' k : Nat} (hn : x + n ≤ g.width) (hx : x' < g.width)
    (hk : k < g.bpp) (h : y' ≠ y ∨ x' < x) : ¬ InRow g y x n (rasterAddr g y' x' k) := by
  rintro ⟨j, k', hj, hk', e⟩
  have := rasterAddr_inj hx (by omega) hk hk' e
  omega

/-- The row a row step leaves, in terms of that row itself: byte by byte, `f` of the encoded pixel and
of neighbours read AFTER the step, so the left one is reconstructed (R105, R107). -/
theorem rasterByte_reconFrom {f : Pixel → Pixel → Pixel → Pixel → Pixel} (hf : KeepsLength f)
    {pix : List Pixel} {x : Nat} {s : State} (hp : ∀ p ∈ pix, p.length = s.geometry.bpp)
    (hw : x + pix.length ≤ s.geometry.width) {j k : Nat} (hj : j < pix.length) (hk : k < s.geometry.bpp) :
    (reconFrom f x pix s).rasterByte s.posY.toNat (x + j) k =
      lane (f pix[j] (leftPixel (reconFrom f x pix s) s.posY.toNat (x + j))
        (upPixel (reconFrom f x pix s) s.posY.toNat (x + j))
        (upLeftPixel (reconFrom f x pix s) s.posY.toNat (x + j))) k := by
  induction pix generalizing x s j with
  | nil => simp at hj
  | cons p ps ih =>
    have hlen : p.length = s.geometry.bpp := hp p List.mem_cons_self
    have hps : ∀ q ∈ ps, q.length = s.geometry.bpp := fun q hq => hp q (List.mem_cons_of_mem _ hq)
    rw [List.length_cons] at hw hj
    cases j with
    | succ j =>
      have := ih (x := x + 1) (s := reconPixel f x p s) (j := j) hps
        (by simp only [reconPixel_geometry]; omega) (by omega) hk
      simpa [reconFrom, Nat.add_assoc, Nat.add_comm 1 j] using this
    | zero =>
      have hgeo : (reconFrom f x (p :: ps) s).geometry = s.geometry := reconFrom_geometry ..
      have hep : (reconFrom f x (p :: ps) s).epoch = s.epoch := reconFrom_epoch ..
      have hrest : (reconFrom f x (p :: ps) s).rasterByte s.posY.toNat x k =
          (s.writePixel s.posY.toNat x (f p (leftPixel s s.posY.toNat x) (upPixel s s.posY.toNat x)
            (upLeftPixel s s.posY.toNat x))).rasterByte s.posY.toNat x k := by
        refine rasterByte_congr hgeo hep ?_
        rw [reconFrom, read?_reconFrom_outside hf, reconPixel_raster f hlen]
        exact not_inRow_of_ne (by simp only [reconPixel_geometry]; omega)
          (by simp only [reconPixel_geometry]; omega) hk (.inr (by omega))
      have hold : ∀ y' x' k, x' < s.geometry.width → k < s.geometry.bpp → (y' ≠ s.posY.toNat ∨ x' < x) →
          (reconFrom f x (p :: ps) s).rasterByte y' x' k = s.rasterByte y' x' k := fun y' x' k hx' hk h =>
        rasterByte_congr hgeo hep
          (read?_reconFrom_outside hf (not_inRow_of_ne (by simpa using hw) hx' hk h))
      have hl : leftPixel (reconFrom f x (p :: ps) s) s.posY.toNat x = leftPixel s s.posY.toNat x := by
        unfold leftPixel
        rw [hgeo]
        split
        · exact readPixel_congr hgeo fun k hk => hold _ _ _ (by omega) hk (.inr (by omega))
        · rfl
      have hu : upPixel (reconFrom f x (p :: ps) s) s.posY.toNat x = upPixel s s.posY.toNat x := by
        unfold upPixel
        rw [hgeo]
        split
        · exact readPixel_congr hgeo fun k hk => hold _ _ _ (by omega) hk (.inl (by omega))
        · rfl
      have hul : upLeftPixel (reconFrom f x (p :: ps) s) s.posY.toNat x = upLeftPixel s s.posY.toNat x := by
        unfold upLeftPixel
        rw [hgeo]
        split
        · exact readPixel_congr hgeo fun k hk => hold _ _ _ (by omega) hk (.inl (by omega))
        · rfl
      simp only [Nat.add_zero, List.getElem_cons_zero, hl, hu, hul, hrest]
      exact rasterByte_writePixel_same (by rw [hf]; omega)

/-- The row of a whole row step (R106), by `rasterByte_reconFrom`. -/
theorem rasterByte_reconRow {f : Pixel → Pixel → Pixel → Pixel → Pixel} (hf : KeepsLength f)
    {pix : List Pixel} {s : State} (hp : ∀ p ∈ pix, p.length = s.geometry.bpp)
    (hw : pix.length = s.geometry.width) {x k : Nat} (hx : x < pix.length) (hk : k < s.geometry.bpp) :
    (reconRow f pix s).rasterByte s.posY.toNat x k =
      lane (f pix[x] (leftPixel (reconRow f pix s) s.posY.toNat x)
        (upPixel (reconRow f pix s) s.posY.toNat x)
        (upLeftPixel (reconRow f pix s) s.posY.toNat x)) k := by
  have := rasterByte_reconFrom hf (x := 0) (s := s) hp (by omega) hx hk
  rw [Nat.zero_add] at this
  exact this

/-- The other rows after a row step (R106). -/
theorem rasterByte_reconRow_other {f : Pixel → Pixel → Pixel → Pixel → Pixel} (hf : KeepsLength f)
    {pix : List Pixel} {s : State} (hw : pix.length = s.geometry.width) {y x k : Nat}
    (hx : x < s.geometry.width) (hk : k < s.geometry.bpp) (hy : y ≠ s.posY.toNat) :
    (reconRow f pix s).rasterByte y x k = s.rasterByte y x k :=
  rasterByte_congr (reconFrom_geometry ..) (reconFrom_epoch ..)
    (read?_reconRow_outside hf (not_inRow_of_ne (by omega) hx hk (.inl hy)))

theorem reconRow_wf {f : Pixel → Pixel → Pixel → Pixel → Pixel} {pix : List Pixel} {s : State}
    (h : s.raster.wf) : (reconRow f pix s).raster.wf := by
  show (reconFrom f 0 pix s).raster.wf
  generalize 0 = x
  induction pix generalizing x s with
  | nil => exact h
  | cons p ps ih => exact ih (Memory.writeAll_wf h _ _) _

/-- A row step lists no address outside its row that was not listed before. -/
theorem mem_reconRow {f : Pixel → Pixel → Pixel → Pixel → Pixel} (hf : KeepsLength f) {pix : List Pixel}
    {s : State} {c : Host.Cell} (h : c ∈ (reconRow f pix s).raster.cells) :
    InRow s.geometry s.posY.toNat 0 pix.length c.1 ∨ c ∈ s.raster.cells := by
  replace h : c ∈ (reconFrom f 0 pix s).raster.cells := h
  generalize 0 = x at h
  induction pix generalizing x s with
  | nil => exact .inr h
  | cons p ps ih =>
    rcases ih _ h with ⟨j, k, hj, hk, e⟩ | h
    · exact .inl ⟨j + 1, k, by simpa using hj, hk, by simpa [Nat.add_assoc, Nat.add_comm 1 j] using e⟩
    · rcases Memory.mem_writeAll h with ⟨h1, h2⟩ | h
      · rw [hf, pixel_length] at h2
        refine .inl ⟨0, c.1 - rasterAddr s.geometry s.posY.toNat x 0, by simp, ?_, ?_⟩
        · simp only [loadOperands_geometry, loadOperands_posY] at h1 h2
          omega
        · rw [Nat.add_zero, ← rasterAddr_add]
          simp only [loadOperands_geometry, loadOperands_posY] at h1
          omega
      · exact .inr h

/-! ### Rows without a row above (R117) -/

theorem widen_zero (w : PaethWiden) : widen w 0 = 0 := by cases w <;> rfl

theorem widen_eq_zero {w : PaethWiden} {v : Byte} (h : widen w v = 0) : v = 0 := by
  cases w
  · exact BitVec.eq_of_toNat_eq (by simpa [widen] using h)
  · exact BitVec.eq_of_toInt_eq (by simpa [widen] using h)

/-- With nothing above, the Paeth choice is the left neighbour (R117). -/
theorem paeth_left (w : PaethWiden) (a : Byte) : paeth w a 0 0 = a := by
  simp only [paeth, widen_zero]
  exact if_pos (by omega)

/-- With nothing to the left, the Paeth choice is the neighbour above (R117). -/
theorem paeth_up (w : PaethWiden) (b : Byte) : paeth w 0 b 0 = b := by
  simp only [paeth, widen_zero]
  split
  · exact (widen_eq_zero (w := w) (v := b) (by omega)).symm
  · exact if_pos (by omega)

/-- Two pixel operations that do the same in the states of one row do the same row. -/
theorem reconFrom_congr {f g : Pixel → Pixel → Pixel → Pixel → Pixel} {x : Nat} {pix : List Pixel} {s : State}
    (h : ∀ x enc s', s'.posY = s.posY → reconPixel f x enc s' = reconPixel g x enc s') :
    reconFrom f x pix s = reconFrom g x pix s := by
  induction pix generalizing x s with
  | nil => rfl
  | cons p ps ih =>
    rw [reconFrom, reconFrom, h x p s rfl]
    exact ih fun x enc s' hs' => h x enc s' (hs'.trans rfl)

/-- In row 0, B and C are ZERO_PIXEL (R22). -/
theorem reconPixel_row0 {f g : Pixel → Pixel → Pixel → Pixel → Pixel} {x : Nat} {enc : Pixel} {s : State}
    (hy : s.posY = 0)
    (h : ∀ x a, f x a (zeroPixel s.geometry) (zeroPixel s.geometry) =
      g x a (zeroPixel s.geometry) (zeroPixel s.geometry)) : reconPixel f x enc s = reconPixel g x enc s := by
  have hb : (loadOperands s x enc).regB.pixel s.geometry = zeroPixel s.geometry := by
    simp only [loadOperands, hy]
    exact pixel_load (by simp) _
  have hc : (loadOperands s x enc).regC.pixel s.geometry = zeroPixel s.geometry := by
    have : upLeftPixel s 0 x = zeroPixel s.geometry := by simp [upLeftPixel]
    simp only [loadOperands, hy]
    rw [show BitVec.toNat (0 : Word) = 0 from rfl, this]
    exact pixel_load (by simp) _
  unfold reconPixel
  simp only [loadOperands_geometry, hb, hc]
  rw [h]

end Sys2Proof.Machine
end

