-- ==== Sys2Proof/Laws/Exec.lean ====
section
/-! SUPPORT. The five meanings as one: each is a row step with the pixel operation of its opcode. -/

namespace Sys2Proof.Machine

/-- `recon_pixel` of R122 for an instruction. -/
def pixelOp (w : PaethWiden) : Instr → Pixel → Pixel → Pixel → Pixel → Pixel
  | .none _ => fun x _ _ _ => pixelNone x
  | .sub _ => fun x a _ _ => pixelSub x a
  | .up _ => fun x _ b _ => pixelUp x b
  | .average _ => fun x a b _ => pixelAverage x a b
  | .paeth _ => fun x a b c => pixelPaeth w x a b c

theorem keepsLength_pixelOp (w : PaethWiden) (i : Instr) : KeepsLength (pixelOp w i) := by
  cases i
  · exact keepsLength_none
  · exact keepsLength_sub
  · exact keepsLength_up
  · exact keepsLength_average
  · exact keepsLength_paeth w

/-- Every instruction completes: `exec` is a row step. -/
theorem exec_eq_reconRow (i : Instr) (s : State) :
    exec i s = .next (reconRow (pixelOp s.params.paethWiden i) i.pixels s) := by
  cases i <;> rfl

/-- The lanes of the pixel operation: the encoded byte plus the predictor of the opcode (R108). -/
theorem lane_pixelOp (w : PaethWiden) (i : Instr) {x : Pixel} {k : Nat} (h : k < x.length) (a b c : Pixel) :
    lane (pixelOp w i x a b c) k =
      lane x k + predictor w (opcodeByte i) (lane a k) (lane b k) (lane c k) := by
  cases i
  · simp [pixelOp, pixelNone, opcodeByte, predictor]
  · simp [pixelOp, lane_pixelSub h, opcodeByte, predictor]
  · simp [pixelOp, lane_pixelUp h, opcodeByte, predictor]
  · simp [pixelOp, lane_pixelAverage h, opcodeByte, predictor]
  · simp [pixelOp, lane_pixelPaeth h, opcodeByte, predictor]

theorem wellFormed_iff {g : Geometry} {i : Instr} :
    WellFormed g i ↔ i.pixels.length = g.width ∧ ∀ p ∈ i.pixels, p.length = g.bpp := by
  simp [WellFormed, Instr.wf, Instr.countWf, Instr.pixelsWf, Pixel.wf, Geometry.bpp]

/-- The reconstructed byte of every column and channel after a well-formed record is executed: the
encoded byte plus the predictor over the neighbours as they stand after the step (R106 to R108). -/
theorem rasterByte_exec {i : Instr} {s : State} (h : WellFormed s.geometry i) {x k : Nat}
    (hx : x < i.pixels.length) (hk : k < s.geometry.bpp) :
    (reconRow (pixelOp s.params.paethWiden i) i.pixels s).rasterByte s.posY.toNat x k =
      lane i.pixels[x] k +
        predictor s.params.paethWiden (opcodeByte i)
          (if x > 0 then
            (reconRow (pixelOp s.params.paethWiden i) i.pixels s).rasterByte s.posY.toNat (x - 1) k else 0)
          (if s.posY.toNat > 0 then s.rasterByte (s.posY.toNat - 1) x k else 0)
          (if x > 0 ∧ s.posY.toNat > 0 then s.rasterByte (s.posY.toNat - 1) (x - 1) k else 0) := by
  obtain ⟨hw, hp⟩ := wellFormed_iff.1 h
  have hf := keepsLength_pixelOp s.params.paethWiden i
  have hk' : k < (reconRow (pixelOp s.params.paethWiden i) i.pixels s).geometry.bpp := by
    rw [reconRow_geometry]
    exact hk
  have hlen : k < i.pixels[x].length := by
    rw [hp _ (List.getElem_mem hx)]
    exact hk
  rw [rasterByte_reconRow hf hp hw hx hk, lane_pixelOp _ _ hlen, lane_leftPixel hk', lane_upPixel hk',
    lane_upLeftPixel hk']
  have hup : ∀ x', x' < s.geometry.width → s.posY.toNat > 0 →
      (reconRow (pixelOp s.params.paethWiden i) i.pixels s).rasterByte (s.posY.toNat - 1) x' k =
        s.rasterByte (s.posY.toNat - 1) x' k := fun x' hx' hy =>
    rasterByte_reconRow_other hf hw hx' hk (by omega)
  congr 2
  · split
    · rename_i hy
      exact hup x (by omega) hy
    · rfl
  · split
    · rename_i hy
      exact hup (x - 1) (by omega) hy.2
    · rfl

section
variable (w : PaethWiden) (pix : List Pixel) (a b c : Byte)

@[simp] theorem predictor_none : predictor w (opcodeByte (.none pix)) a b c = 0 := rfl
@[simp] theorem predictor_sub : predictor w (opcodeByte (.sub pix)) a b c = a := rfl
@[simp] theorem predictor_up : predictor w (opcodeByte (.up pix)) a b c = b := rfl
@[simp] theorem predictor_average : predictor w (opcodeByte (.average pix)) a b c = avg a b := rfl
@[simp] theorem predictor_paeth : predictor w (opcodeByte (.paeth pix)) a b c = paeth w a b c := rfl

end

theorem avg_toNat (a b : Byte) : (avg a b).toNat = (a.toNat + b.toNat) / 2 := by
  simp [avg]
  omega

/-- POS_Y does not wrap while a row is left (R27). -/
theorem posY_succ {s : State} (h : s.posY.toNat < s.geometry.height) :
    (s.posY + 1).toNat = s.posY.toNat + 1 := by
  have : s.geometry.height < 2 ^ 32 := s.cfgHeight.isLt
  rw [BitVec.toNat_add]
  simp
  omega

/-- POS_X does not wrap while a column is left (R27). -/
theorem posX_succ {s : State} (h : s.posX.toNat < s.geometry.width) :
    (s.posX + 1).toNat = s.posX.toNat + 1 := by
  have : s.geometry.width < 2 ^ 32 := s.cfgWidth.isLt
  rw [BitVec.toNat_add]
  simp
  omega

/-- A well-formed record, executed with a row left, gives a next state at the next row whose bytes are
those of `rasterByte_exec`. -/
theorem exec_row {s : State} (i : Instr) (hwf : WellFormed s.geometry i)
    (hy : s.posY.toNat < s.geometry.height) :
    ∃ t, exec i s = .next t ∧ t.posX = 0 ∧ t.posY.toNat = s.posY.toNat + 1 ∧
      ∀ x k (hx : x < i.pixels.length), k < s.geometry.bpp →
        t.rasterByte s.posY.toNat x k =
          lane i.pixels[x] k +
            predictor s.params.paethWiden (opcodeByte i)
              (if x > 0 then t.rasterByte s.posY.toNat (x - 1) k else 0)
              (if s.posY.toNat > 0 then s.rasterByte (s.posY.toNat - 1) x k else 0)
              (if x > 0 ∧ s.posY.toNat > 0 then s.rasterByte (s.posY.toNat - 1) (x - 1) k else 0) := by
  refine ⟨_, exec_eq_reconRow i s, rfl, ?_, fun x k hx hk => rasterByte_exec hwf hx hk⟩
  obtain ⟨_, _, _, _, _, h⟩ := reconRow_frame (pixelOp s.params.paethWiden i) i.pixels s
  rw [h]
  exact posY_succ hy

/-- What the decoder of the opcode answers (R81, R82). -/
theorem decodeRecord_eq_some {ft : Byte} {pix : List Pixel} {i : Instr} :
    decodeRecord ft pix = some i ↔ opcodeByte i = ft ∧ i.pixels = pix := by
  unfold decodeRecord
  constructor
  · intro h
    repeat' split at h
    all_goals first
      | (injection h with h; subst h; exact ⟨by simp_all [opcodeByte], rfl⟩)
      | simp at h
  · rintro ⟨rfl, rfl⟩
    cases i <;> simp [opcodeByte, Instr.pixels]

theorem decodeRecord_eq_none {ft : Byte} {pix : List Pixel} :
    decodeRecord ft pix = none ↔ 4 < ft.toNat := by
  unfold decodeRecord
  repeat' split
  all_goals simp_all [BitVec.toNat_eq]
  all_goals omega

end Sys2Proof.Machine
end

