-- ==== Sys2Proof/Laws/Decode.lean ====
section
/-! SUPPORT. How the bytes of a record split into pixels and join again. -/

namespace Sys2Proof

theorem splitPixels_length (bpp n : Nat) (bs : List Byte) : (splitPixels bpp n bs).length = n := by
  induction n generalizing bs with
  | zero => rfl
  | succ n ih => simp [splitPixels, ih]

theorem flatten_length_of_pixels {bpp : Nat} {pix : List Pixel} (h : ∀ p ∈ pix, p.length = bpp) :
    pix.flatten.length = pix.length * bpp := by
  induction pix with
  | nil => simp
  | cons p ps ih =>
    rw [List.flatten_cons, List.length_append, ih fun q hq => h q (List.mem_cons_of_mem _ hq),
      h p List.mem_cons_self, List.length_cons, Nat.add_mul]
    omega

/-- Splitting the joined pixels gives them back. -/
theorem splitPixels_flatten {bpp : Nat} {pix : List Pixel} (h : ∀ p ∈ pix, p.length = bpp) (rest : List Byte) :
    splitPixels bpp pix.length (pix.flatten ++ rest) = pix := by
  induction pix with
  | nil => rfl
  | cons p ps ih =>
    have hp := h p List.mem_cons_self
    rw [List.length_cons, splitPixels, List.flatten_cons, List.append_assoc, ← hp, List.take_left,
      List.drop_left, hp, ih fun q hq => h q (List.mem_cons_of_mem _ hq)]

theorem splitPixels_pixel_length {bpp n : Nat} {bs : List Byte} (h : n * bpp ≤ bs.length) :
    ∀ p ∈ splitPixels bpp n bs, p.length = bpp := by
  induction n generalizing bs with
  | zero => simp [splitPixels]
  | succ n ih =>
    rw [Nat.add_mul, Nat.one_mul] at h
    intro p hp
    rcases List.mem_cons.1 hp with rfl | hp
    · simp only [List.length_take]
      omega
    · exact ih (bs := bs.drop bpp) (by simp only [List.length_drop]; omega) p hp

/-- Joining the split pixels gives the bytes back. -/
theorem flatten_splitPixels {bpp n : Nat} {bs : List Byte} (h : n * bpp ≤ bs.length) :
    (splitPixels bpp n bs).flatten = bs.take (n * bpp) := by
  induction n generalizing bs with
  | zero => simp [splitPixels]
  | succ n ih =>
    rw [Nat.add_mul, Nat.one_mul] at h
    rw [splitPixels, List.flatten_cons, ih (by simp only [List.length_drop]; omega), Nat.add_mul, Nat.one_mul,
      Nat.add_comm (n * bpp), List.take_add]

/-- Channel `k` of pixel `x` is byte `x * BPP + k` of the pixel bytes (R79). -/
theorem splitPixels_getElem? {bpp n : Nat} {bs : List Byte} {x k : Nat} (hx : x < n) (hk : k < bpp) :
    ((splitPixels bpp n bs)[x]?.bind fun p => p[k]?) = bs[x * bpp + k]? := by
  induction n generalizing bs x with
  | zero => omega
  | succ n ih =>
    cases x with
    | zero => simp [splitPixels, hk]
    | succ x =>
      simp only [splitPixels, List.getElem?_cons_succ]
      rw [ih (by omega), List.getElem?_drop, Nat.add_mul, Nat.one_mul]
      congr 1
      omega

namespace Machine

/-- The record a RECON step executes, as the decoder of whole records reads it: the decoder of R81 on
FT[POS_Y], with the pixels of the row. -/
theorem decode_fetchedRecord (s : State) :
    decode s.geometry s.fetchedRecord =
      match decodeRecord (s.readByte .ft s.posY.toNat) (s.readRow s.posY.toNat) with
      | some i => .ok (i, [])
      | none => .error (.unsupportedFilterType (s.readByte .ft s.posY.toNat)) := by
  have hp : ∀ p ∈ s.readRow s.posY.toNat, p.length = s.geometry.bpp := by
    intro p hp
    simp only [State.readRow, List.mem_map] at hp
    obtain ⟨x, -, rfl⟩ := hp
    exact readPixel_length ..
  have hlen := flatten_length_of_pixels hp
  have hsplit := splitPixels_flatten hp []
  rw [List.append_nil, readRow_length] at hsplit
  rw [readRow_length] at hlen
  rw [State.fetchedRecord, decode, if_neg (by omega), hsplit]
  cases decodeRecord (s.readByte .ft s.posY.toNat) (s.readRow s.posY.toNat) with
  | none => rfl
  | some i => simp [← hlen]

end Machine

end Sys2Proof
end

