-- ==== Sys2Proof/Laws/Load.lean ====
section
/-! SUPPORT. What the LOAD step does (R96). -/

namespace Sys2Proof.Machine

theorem loadPixels_frame (y base n x : Nat) (s : State) :
    ∃ ras, loadPixels y base n x s = { s with raster := ras } := by
  induction n generalizing x s with
  | zero => exact ⟨s.raster, rfl⟩
  | succ n ih =>
    obtain ⟨ras, h⟩ := ih (x + 1) (s.writePixel y x
      (s.readBytes .input (base + 1 + x * s.geometry.bpp) s.geometry.bpp))
    exact ⟨ras, by rw [loadPixels, h]; rfl⟩

/-- LOAD neither reads nor writes the host's queue. -/
theorem loadPixels_withQueue (y base n x : Nat) (s : State) (q : List HostOp) :
    loadPixels y base n x { s with hostQueue := q } = { loadPixels y base n x s with hostQueue := q } := by
  induction n generalizing x s with
  | zero => rfl
  | succ n ih => exact ih (x + 1) (s.writePixel y x
      (s.readBytes .input (base + 1 + x * s.geometry.bpp) s.geometry.bpp))

theorem loadPixels_geometry (y base n x : Nat) (s : State) : (loadPixels y base n x s).geometry = s.geometry := by
  obtain ⟨_, h⟩ := loadPixels_frame y base n x s
  rw [h]
  rfl

theorem loadPixels_epoch (y base n x : Nat) (s : State) : (loadPixels y base n x s).epoch = s.epoch := by
  obtain ⟨_, h⟩ := loadPixels_frame y base n x s
  rw [h]

theorem read?_loadPixels_outside {y base n x a : Nat} {s : State} (h : ¬ InRow s.geometry y x n a) :
    (loadPixels y base n x s).raster.read? a = s.raster.read? a := by
  induction n generalizing x s with
  | zero => rfl
  | succ n ih =>
    rw [loadPixels, ih, read?_writePixel_outside]
    · intro k hk e
      exact h ⟨0, k, by omega, by simpa using hk, by simpa using e⟩
    · rintro ⟨j, k, hj, hk, e⟩
      exact h ⟨j + 1, k, by omega, hk, by simpa [Nat.add_assoc, Nat.add_comm 1 j] using e⟩

theorem rasterByte_loadPixels {y base n x : Nat} {s : State} (hw : x + n ≤ s.geometry.width) {j k : Nat}
    (hj : j < n) (hk : k < s.geometry.bpp) :
    (loadPixels y base n x s).rasterByte y (x + j) k =
      s.readByte .input (base + 1 + (x + j) * s.geometry.bpp + k) := by
  induction n generalizing x s j with
  | zero => simp at hj
  | succ n ih =>
    rw [loadPixels]
    cases j with
    | succ j =>
      have := ih (x := x + 1) (j := j) (s := s.writePixel y x
        (s.readBytes .input (base + 1 + x * s.geometry.bpp) s.geometry.bpp)) (by simp only [writePixel_geometry]; omega)
        (by omega) hk
      rw [show x + (j + 1) = x + 1 + j by omega, this]
      rfl
    | zero =>
      have hkeep := rasterByte_congr (y := y) (x := x) (k := k)
        (loadPixels_geometry y base n (x + 1) (s.writePixel y x
          (s.readBytes .input (base + 1 + x * s.geometry.bpp) s.geometry.bpp)))
        (loadPixels_epoch ..)
        (read?_loadPixels_outside (not_inRow_of_ne (by simp only [writePixel_geometry]; omega)
          (by simp only [writePixel_geometry]; omega) hk (.inr (by omega))))
      simp only [Nat.add_zero, hkeep]
      rw [rasterByte_writePixel_same (by simpa using hk), lane_of_lt (by simpa using hk), readBytes_getElem]

/-- The LOAD step where IN holds the whole record (R96). -/
theorem loadRecord_eq {s : State} (h : ¬ s.inPos.toNat + s.geometry.recLen > s.inLen.toNat) :
    ∃ ras, loadPixels s.posY.toNat s.inPos.toNat s.geometry.width 0
        (s.writeFt s.posY.toNat (s.readByte .input s.inPos.toNat)) =
          { s.writeFt s.posY.toNat (s.readByte .input s.inPos.toNat) with raster := ras } ∧
      loadRecord s =
        { s.writeFt s.posY.toNat (s.readByte .input s.inPos.toNat) with
          raster := ras
          inPos := s.inPos + BitVec.ofNat 32 s.geometry.recLen
          posY := s.posY + 1 } := by
  obtain ⟨ras, hr⟩ := loadPixels_frame s.posY.toNat s.inPos.toNat s.geometry.width 0
    (s.writeFt s.posY.toNat (s.readByte .input s.inPos.toNat))
  refine ⟨ras, hr, ?_⟩
  rw [loadRecord, if_neg h]
  simp only [hr]
  rfl

/-- The LOAD step where IN does not hold the whole record (R97). -/
theorem loadRecord_truncated {s : State} (h : s.inPos.toNat + s.geometry.recLen > s.inLen.toNat) :
    loadRecord s = raise .truncatedInput s := by
  rw [loadRecord, if_pos h]

section
variable {s : State} (h : ¬ s.inPos.toNat + s.geometry.recLen > s.inLen.toNat)
include h

theorem loadRecord_rasterByte {x k : Nat} (hx : x < s.geometry.width) (hk : k < s.geometry.bpp) :
    (loadRecord s).rasterByte s.posY.toNat x k =
      s.readByte .input (s.inPos.toNat + 1 + x * s.geometry.bpp + k) := by
  obtain ⟨ras, hr, e⟩ := loadRecord_eq h
  have := rasterByte_loadPixels (y := s.posY.toNat) (base := s.inPos.toNat) (n := s.geometry.width) (x := 0)
    (s := s.writeFt s.posY.toNat (s.readByte .input s.inPos.toNat)) (by simp) hx hk
  rw [hr, Nat.zero_add] at this
  rw [e]
  exact this

theorem loadRecord_read?_outside {a : Nat} (ha : ¬ InRow s.geometry s.posY.toNat 0 s.geometry.width a) :
    (loadRecord s).raster.read? a = s.raster.read? a := by
  obtain ⟨ras, hr, e⟩ := loadRecord_eq h
  have := read?_loadPixels_outside (y := s.posY.toNat) (base := s.inPos.toNat)
    (s := s.writeFt s.posY.toNat (s.readByte .input s.inPos.toNat)) ha
  rw [hr] at this
  rw [e]
  exact this

theorem loadRecord_geometry : (loadRecord s).geometry = s.geometry := by
  obtain ⟨ras, _, e⟩ := loadRecord_eq h
  rw [e]
  rfl

theorem loadRecord_epoch : (loadRecord s).epoch = s.epoch := by
  obtain ⟨ras, _, e⟩ := loadRecord_eq h
  rw [e]
  rfl

theorem loadRecord_rasterByte_other {y x k : Nat} (hx : x < s.geometry.width) (hk : k < s.geometry.bpp)
    (hy : y ≠ s.posY.toNat) : (loadRecord s).rasterByte y x k = s.rasterByte y x k :=
  rasterByte_congr (loadRecord_geometry h) (loadRecord_epoch h)
    (loadRecord_read?_outside h (not_inRow_of_ne (by simp) hx hk (.inl hy)))

theorem loadRecord_ft_same : (loadRecord s).readByte .ft s.posY.toNat = s.readByte .input s.inPos.toNat := by
  obtain ⟨ras, _, e⟩ := loadRecord_eq h
  rw [e]
  exact readByte_of_read? (Memory.read?_write_same ..)

theorem loadRecord_ft_other {y : Nat} (hy : y ≠ s.posY.toNat) :
    (loadRecord s).readByte .ft y = s.readByte .ft y := by
  obtain ⟨ras, _, e⟩ := loadRecord_eq h
  rw [e]
  exact readByte_congr (Memory.read?_write_ne _ hy _) rfl

end

theorem loadPixels_wf {y base n x : Nat} {s : State} (h : s.raster.wf) : (loadPixels y base n x s).raster.wf := by
  induction n generalizing x s with
  | zero => exact h
  | succ n ih => exact ih (Memory.writeAll_wf h _ _)

theorem mem_loadPixels {y base n x : Nat} {s : State} {c : Host.Cell}
    (h : c ∈ (loadPixels y base n x s).raster.cells) : InRow s.geometry y x n c.1 ∨ c ∈ s.raster.cells := by
  induction n generalizing x s with
  | zero => exact .inr h
  | succ n ih =>
    rcases ih h with ⟨j, k, hj, hk, e⟩ | h
    · exact .inl ⟨j + 1, k, by omega, hk, by simpa [Nat.add_assoc, Nat.add_comm 1 j] using e⟩
    · rcases Memory.mem_writeAll h with ⟨h1, h2⟩ | h
      · rw [readBytes_length] at h2
        refine .inl ⟨0, c.1 - rasterAddr s.geometry y x 0, by omega, by omega, ?_⟩
        rw [Nat.add_zero, ← rasterAddr_add]
        omega
      · exact .inr h

end Sys2Proof.Machine
end

