-- ==== Sys2Proof/Laws/Step.lean ====
section
/-! SUPPORT. All that a step can do, said once: the rules of the sequencer and the operations of the host. -/

namespace Sys2Proof.Machine

/-- The rules of the sequencer that lead from `s` to a next state: one constructor each (R12). -/
inductive SequencerRule (s : State) : State → Prop
  | fetch (hp : s.phase = .load) (hy : s.posY.toNat < s.geometry.height)
      (h : ¬ s.inPos.toNat + s.geometry.recLen > s.inLen.toNat) : SequencerRule s (loadRecord s)
  | truncated (hp : s.phase = .load) (hy : s.posY.toNat < s.geometry.height)
      (h : s.inPos.toNat + s.geometry.recLen > s.inLen.toNat) : SequencerRule s (raise .truncatedInput s)
  | loadEnd (hp : s.phase = .load) (hy : s.posY.toNat = s.geometry.height) : SequencerRule s (loadEnd s)
  | execute (hp : s.phase = .recon) (hy : s.posY.toNat < s.geometry.height) (i : Instr)
      (ho : opcodeByte i = s.readByte .ft s.posY.toNat) (hi : i.pixels = s.readRow s.posY.toNat) :
      SequencerRule s (reconRow (pixelOp s.params.paethWiden i) i.pixels s)
  | badFilter (hp : s.phase = .recon) (hy : s.posY.toNat < s.geometry.height)
      (h : 4 < (s.readByte .ft s.posY.toNat).toNat) :
      SequencerRule s (raise (.unsupportedFilterType (s.readByte .ft s.posY.toNat)) s)
  | reconEnd (hp : s.phase = .recon) (hy : s.posY.toNat = s.geometry.height) : SequencerRule s (reconEnd s)
  | emitHeader (hp : s.phase = .emit) (h : s.outLen = 0) : SequencerRule s (emitHeader s)
  | emitEnd (hp : s.phase = .emit) (h : 54 ≤ s.outLen) (hy : s.posY.toNat = 0) : SequencerRule s (emitEnd s)
  | emitPixel (hp : s.phase = .emit) (h : 54 ≤ s.outLen) (hy : 0 < s.posY.toNat)
      (hx : s.posX.toNat < s.geometry.width) : SequencerRule s (emitPixel s)
  | emitPad (hp : s.phase = .emit) (h : 54 ≤ s.outLen) (hy : 0 < s.posY.toNat)
      (hx : s.posX.toNat = s.geometry.width) : SequencerRule s (emitPad s)

theorem reconRecord_of_some {s : State} {i : Instr} (ho : opcodeByte i = s.readByte .ft s.posY.toNat)
    (hi : i.pixels = s.readRow s.posY.toNat) : reconRecord s = exec i s := by
  rw [reconRecord, decodeRecord_eq_some.2 ⟨ho, hi⟩]

theorem reconRecord_of_none {s : State} (h : 4 < (s.readByte .ft s.posY.toNat).toNat) :
    reconRecord s = .next (raise (.unsupportedFilterType (s.readByte .ft s.posY.toNat)) s) := by
  rw [reconRecord, decodeRecord_eq_none.2 h]

/-- If the sequencer answers a next state, it is that of one of its rules. -/
theorem sequencerStep_cases {s t : State} (h : sequencerStep s = .next t) : SequencerRule s t := by
  unfold sequencerStep at h
  split at h
  case h_1 | h_5 | h_6 => cases h
  case h_2 hp =>
    unfold loadStep at h
    split at h
    · rename_i hy
      injection h with h
      by_cases hl : s.inPos.toNat + s.geometry.recLen > s.inLen.toNat
      · rw [loadRecord_truncated hl] at h
        exact h ▸ .truncated hp hy hl
      · exact h ▸ .fetch hp hy hl
    · split at h
      · rename_i hy
        injection h with h
        exact h ▸ .loadEnd hp hy
      · cases h
  case h_3 hp =>
    unfold reconStep at h
    split at h
    · rename_i hy
      cases hd : decodeRecord (s.readByte .ft s.posY.toNat) (s.readRow s.posY.toNat) with
      | none =>
        rw [reconRecord_of_none (decodeRecord_eq_none.1 hd)] at h
        injection h with h
        exact h ▸ .badFilter hp hy (decodeRecord_eq_none.1 hd)
      | some i =>
        obtain ⟨ho, hi⟩ := decodeRecord_eq_some.1 hd
        rw [reconRecord_of_some ho hi, exec_eq_reconRow] at h
        injection h with h
        exact h ▸ .execute hp hy i ho hi
    · split at h
      · rename_i hy
        injection h with h
        exact h ▸ .reconEnd hp hy
      · cases h
  case h_4 hp =>
    unfold emitStep at h
    split at h
    · rename_i h0
      injection h with h
      exact h ▸ .emitHeader hp h0
    · split at h
      · cases h
      · rename_i h54
        split at h
        · rename_i hy
          injection h with h
          exact h ▸ .emitEnd hp (by omega) hy
        · rename_i hy
          split at h
          · rename_i hx
            injection h with h
            exact h ▸ .emitPixel hp (by omega) (by omega) hx
          · split at h
            · rename_i hx
              injection h with h
              exact h ▸ .emitPad hp (by omega) (by omega) hx
            · cases h

/-- Each rule of the sequencer is what the sequencer does where it is enabled. -/
theorem SequencerRule.sequencerStep {s t : State} (h : SequencerRule s t) : sequencerStep s = .next t := by
  cases h with
  | fetch hp hy h => simp [Machine.sequencerStep, hp, loadStep, hy]
  | truncated hp hy h => rw [Machine.sequencerStep, hp]; simp [loadStep, hy, loadRecord_truncated h]
  | loadEnd hp hy => simp [Machine.sequencerStep, hp, loadStep, hy]
  | execute hp hy i ho hi =>
    simp [Machine.sequencerStep, hp, reconStep, hy, reconRecord_of_some ho hi, exec_eq_reconRow]
  | badFilter hp hy h => simp [Machine.sequencerStep, hp, reconStep, hy, reconRecord_of_none h]
  | reconEnd hp hy => simp [Machine.sequencerStep, hp, reconStep, hy]
  | emitHeader hp h => simp [Machine.sequencerStep, hp, emitStep, h]
  | emitEnd hp h hy =>
    have : ¬ s.outLen = 0 := by omega
    have : ¬ s.outLen < 54 := by omega
    simp [Machine.sequencerStep, emitStep, *]
  | emitPixel hp h hy hx =>
    have : ¬ s.outLen = 0 := by omega
    have : ¬ s.outLen < 54 := by omega
    have : ¬ s.posY.toNat = 0 := by omega
    simp only [Machine.sequencerStep, emitStep, *, if_true, if_false]
  | emitPad hp h hy hx =>
    have : ¬ s.outLen = 0 := by omega
    have : ¬ s.outLen < 54 := by omega
    have : ¬ s.posY.toNat = 0 := by omega
    have : ¬ s.posX.toNat < s.geometry.width := by omega
    simp only [Machine.sequencerStep, emitStep, *, if_true, if_false, lt_irrefl]

/-- With no host operation pending a step is the sequencer's. -/
theorem step_of_nil {s : State} (h : s.hostQueue = []) : step s = sequencerStep s := by
  rw [step, agentStep, h]

theorem step_of_cons {s : State} {op : HostOp} {rest : List HostOp} (h : s.hostQueue = op :: rest) :
    step s = hostStep op { s with hostQueue := rest } := by
  rw [step, agentStep, h]

/-- A configuration write that is accepted: `u` is `t` but for its four configuration registers. -/
def ConfigWritten (t u : State) : Prop :=
  t.phase = .idle ∧ ∃ w h c n, u = { t with cfgWidth := w, cfgHeight := h, cfgColor := c, inLen := n }

/-- What a host operation leads to: one constructor each (R177). -/
inductive HostRule (s : State) : HostOp → State → Prop
  | ignored (op : HostOp) : HostRule s op s
  | configured (op : HostOp) (u : State) (h : ConfigWritten s u) : HostRule s op u
  | reset (v : Word) (hv : v.getLsbD 1 = true) : HostRule s (.write .ctrl v) (resetBlock s)
  | started (v : Word) (hp : s.phase = .idle) (hl : s.legal = true) :
      HostRule s (.write .ctrl v)
        { s with phase := .load, posY := 0, posX := 0, inPos := 0, outLen := 0, out := Memory.empty }
  | placed (bytes : List Byte) (hb : s.busy = false) :
      HostRule s (.place bytes) { s with input := s.input.writeAll 0 bytes }
  | waited (t : State) (hb : s.busy = true) (h : SequencerRule s t) : HostRule s .wait t

theorem startBlock_cases {s t : State} (h : startBlock s = .next t) (v : Word) :
    HostRule s (.write .ctrl v) t := by
  unfold startBlock at h
  split at h
  · split at h
    · injection h with h
      exact h ▸ .started v ‹_› ‹_›
    · cases h
  · injection h with h
    exact h ▸ .ignored _

theorem hostStep_cases {op : HostOp} {s t : State} (h : hostStep op s = .next t) : HostRule s op t := by
  cases op with
  | write r v =>
    cases r with
    | ctrl =>
      simp only [hostStep, writeReg, writeCtrl] at h
      split at h
      · injection h with h
        exact h ▸ .reset v ‹_›
      · split at h
        · exact startBlock_cases h v
        · injection h with h
          exact h ▸ .ignored _
    | cfgWidth =>
      simp only [hostStep, writeReg] at h
      injection h with h
      split at h
      · exact .configured _ t ⟨‹_›, v, s.cfgHeight, s.cfgColor, s.inLen, h.symm⟩
      · exact h ▸ .ignored _
    | cfgHeight =>
      simp only [hostStep, writeReg] at h
      injection h with h
      split at h
      · exact .configured _ t ⟨‹_›, s.cfgWidth, v, s.cfgColor, s.inLen, h.symm⟩
      · exact h ▸ .ignored _
    | cfgColor =>
      simp only [hostStep, writeReg] at h
      injection h with h
      split at h
      · exact .configured _ t ⟨‹_›, s.cfgWidth, s.cfgHeight, colorOfWord v, s.inLen, h.symm⟩
      · exact h ▸ .ignored _
    | inLen =>
      simp only [hostStep, writeReg] at h
      injection h with h
      split at h
      · exact .configured _ t ⟨‹_›, s.cfgWidth, s.cfgHeight, s.cfgColor, v, h.symm⟩
      · exact h ▸ .ignored _
    | status | faultCode | faultValue | faultExpected | faultActual | posY | posX | inPos | outLen =>
      injection h with h
      exact h ▸ .ignored _
  | place bytes =>
    simp only [hostStep, placeInput] at h
    split at h
    · cases h
    · injection h with h
      exact h ▸ .placed bytes (by simpa using ‹¬ s.busy = true›)
  | wait =>
    simp only [hostStep] at h
    split at h
    · exact .waited t ‹_› (sequencerStep_cases h)
    · injection h with h
      exact h ▸ .ignored _

/-- All that a step of the machine can do: a rule of the sequencer, or an operation of the host on the
state with the operation taken off the queue. -/
theorem step_cases {s t : State} (h : step s = .next t) :
    s.hostQueue = [] ∧ SequencerRule s t ∨
      ∃ op rest, s.hostQueue = op :: rest ∧ HostRule { s with hostQueue := rest } op t := by
  cases hq : s.hostQueue with
  | nil =>
    rw [step_of_nil hq] at h
    exact .inl ⟨rfl, sequencerStep_cases h⟩
  | cons op rest =>
    rw [step_of_cons hq] at h
    exact .inr ⟨op, rest, rfl, hostStep_cases h⟩

theorem busy_iff {s : State} : s.busy = true ↔ s.phase = .load ∨ s.phase = .recon ∨ s.phase = .emit := by
  simp [State.busy]

/-- A rule of the sequencer is enabled only while BUSY (R186, R189). -/
theorem SequencerRule.busy {s t : State} (h : SequencerRule s t) : s.busy = true := by
  rw [busy_iff]
  cases h <;> simp_all

/-- What every rule of the sequencer keeps. -/
structure SequencerKeeps (s t : State) : Prop where
  params : t.params = s.params
  geometry : t.geometry = s.geometry
  inLen : t.inLen = s.inLen
  input : t.input = s.input
  epoch : t.epoch = s.epoch
  hostQueue : t.hostQueue = s.hostQueue
  ft : s.phase ≠ .load → t.ft = s.ft
  raster : s.phase = .emit → t.raster = s.raster
  out : s.phase ≠ .emit → t.out = s.out
  outLen : s.phase ≠ .emit → t.outLen = s.outLen
  faults : t.phase = .fault ∧ (t.faultCode = 1 ∨ t.faultCode = 2) ∨
    t.phase ≠ .fault ∧ t.faultCode = s.faultCode ∧ t.faultValue = s.faultValue ∧
      t.faultExpected = s.faultExpected ∧ t.faultActual = s.faultActual

theorem SequencerRule.keeps {s t : State} (h : SequencerRule s t) : SequencerKeeps s t := by
  cases h with
  | fetch hp hy h =>
    obtain ⟨ras, _, e⟩ := loadRecord_eq h
    rw [e]
    exact ⟨rfl, rfl, rfl, rfl, rfl, rfl, fun h => absurd hp h, fun h => by simp [hp] at h, fun _ => rfl,
      fun _ => rfl, .inr ⟨fun h => by simp [hp] at h, rfl, rfl, rfl, rfl⟩⟩
  | execute hp hy i =>
    obtain ⟨_, _, _, _, _, h⟩ := reconRow_frame (pixelOp s.params.paethWiden i) i.pixels s
    rw [h]
    exact ⟨rfl, rfl, rfl, rfl, rfl, rfl, fun _ => rfl, fun h => by simp [hp] at h, fun _ => rfl,
      fun _ => rfl, .inr ⟨fun h => by simp [hp] at h, rfl, rfl, rfl, rfl⟩⟩
  | truncated hp =>
    exact ⟨rfl, rfl, rfl, rfl, rfl, rfl, fun _ => rfl, fun _ => rfl, fun _ => rfl, fun _ => rfl,
      .inl ⟨rfl, .inl rfl⟩⟩
  | badFilter hp =>
    exact ⟨rfl, rfl, rfl, rfl, rfl, rfl, fun _ => rfl, fun _ => rfl, fun _ => rfl, fun _ => rfl,
      .inl ⟨rfl, .inr rfl⟩⟩
  | loadEnd | reconEnd | emitEnd =>
    exact ⟨rfl, rfl, rfl, rfl, rfl, rfl, fun _ => rfl, fun _ => rfl, fun _ => rfl, fun _ => rfl,
      .inr ⟨by simp, rfl, rfl, rfl, rfl⟩⟩
  | emitHeader hp | emitPixel hp | emitPad hp =>
    exact ⟨rfl, rfl, rfl, rfl, rfl, rfl, fun _ => rfl, fun _ => rfl, fun h => absurd hp h, fun h => absurd hp h,
      .inr ⟨by simp [hp], rfl, rfl, rfl, rfl⟩⟩

theorem outBytes_congr {s t : State} (h1 : t.out = s.out) (h2 : t.outLen = s.outLen) (h3 : t.epoch = s.epoch) :
    t.outBytes = s.outBytes := by
  simp [State.outBytes, State.readBytes, State.readByte, h1, h2, h3]

/-- A step outside IDLE that is no RESET: nothing but the queue changes, or IN is placed after the run,
or the sequencer takes a step. -/
theorem step_cases_in_run {s t : State} (hp : s.phase ≠ .idle) (hr : ¬ ResetPending s) (h : step s = .next t) :
    ∃ rest, t = { s with hostQueue := rest } ∨
      (∃ bytes, s.busy = false ∧ t = { s with hostQueue := rest, input := s.input.writeAll 0 bytes }) ∨
      s.busy = true ∧ SequencerRule { s with hostQueue := rest } t := by
  rcases step_cases h with ⟨hq, h⟩ | ⟨op, rest, hq, h⟩
  · refine ⟨s.hostQueue, .inr (.inr ⟨h.busy, h⟩)⟩
  · refine ⟨rest, ?_⟩
    cases h with
    | ignored => exact .inl rfl
    | configured _ _ h => exact absurd h.1 hp
    | reset v hv => exact absurd ⟨v, rest, hq, hv⟩ hr
    | started v hp' => exact absurd hp' hp
    | placed bytes hb => exact .inr (.inl ⟨bytes, hb, rfl⟩)
    | waited _ hb h => exact .inr (.inr ⟨hb, h⟩)

end Sys2Proof.Machine
end

