-- ==== Sys2Proof/Laws/Reference.lean ====
section
/-! SUPPORT. The reference functions of Safety.lean: their equations, and what they depend on. -/

namespace Sys2Proof

/-- One byte of a reference row, from the row itself and the row above (R122). -/
theorem refRow_eq (w : PaethWiden) (ft : Byte) (enc prev : Nat → Nat → Byte) (x k : Nat) :
    refRow w ft enc prev x k =
      enc x k + predictor w ft (if x > 0 then refRow w ft enc prev (x - 1) k else 0) (prev x k)
        (if x > 0 then prev (x - 1) k else 0) := by
  cases x <;> simp [refRow]

/-- One byte of the reference raster, from its neighbours there (R107, R108, R122). -/
theorem refRaster_eq (w : PaethWiden) (g : Geometry) (inp : InputBytes) (y x k : Nat) :
    refRaster w g inp y x k =
      encodedByte g inp y x k + predictor w (filterByte g inp y)
        (if x > 0 then refRaster w g inp y (x - 1) k else 0)
        (if y > 0 then refRaster w g inp (y - 1) x k else 0)
        (if x > 0 ∧ y > 0 then refRaster w g inp (y - 1) (x - 1) k else 0) := by
  cases y <;> rw [refRaster, refRow_eq] <;> simp

/-- No row below the last one. -/
theorem refRowsDownTo_height (p : Params) (g : Geometry) (ras : Nat → Nat → Nat → Byte) :
    refRowsDownTo p g ras g.height = [] := by
  simp [refRowsDownTo]

/-- The next row out is the one above (R144). -/
theorem refRowsDownTo_pred (p : Params) (g : Geometry) (ras : Nat → Nat → Nat → Byte) {y : Nat} (h0 : 0 < y)
    (h : y ≤ g.height) :
    refRowsDownTo p g ras (y - 1) = refRowsDownTo p g ras y ++ refOutRow p g ras (y - 1) := by
  obtain ⟨y, rfl⟩ : ∃ n, y = n + 1 := ⟨y - 1, by omega⟩
  have : g.height - y = g.height - (y + 1) + 1 := by omega
  simp [refRowsDownTo, this, List.range'_succ]

@[simp] theorem refPixels_zero (ras : Nat → Nat → Nat → Byte) (y : Nat) : refPixels ras y 0 = [] := rfl

theorem refPixels_succ (ras : Nat → Nat → Nat → Byte) (y n : Nat) :
    refPixels ras y (n + 1) = refPixels ras y n ++ [ras y n 2, ras y n 1, ras y n 0] := by
  simp [refPixels, List.range_succ]

namespace Machine

theorem inputBytes_congr {s t : State} (h1 : t.input = s.input) (h2 : t.epoch = s.epoch) :
    t.inputBytes = s.inputBytes := by
  funext a
  simp [State.inputBytes, State.readByte, h1, h2]

theorem refByte_congr {s t : State} (hp : t.params = s.params) (hg : t.geometry = s.geometry)
    (hi : t.inputBytes = s.inputBytes) : t.refByte = s.refByte := by
  simp [State.refByte, hp, hg, hi]

/-- The output bytes of a pixel of RASTER (R145). -/
theorem bgr_readPixel (s : State) (y x : Nat) :
    bgr (s.readPixel y x) = [s.rasterByte y x 2, s.rasterByte y x 1, s.rasterByte y x 0] := by
  have h : 2 < s.geometry.bpp := by rcases s.geometry.bpp_cases with h | h <;> omega
  simp only [bgr, blue, green, red, lane_readPixel h, lane_readPixel (show 1 < s.geometry.bpp by omega),
    lane_readPixel (show 0 < s.geometry.bpp by omega)]

end Machine

end Sys2Proof
end

