-- ==== Sys2Proof/Laws/Invariant.lean ====
section
/-! SUPPORT. The pieces of the invariant: what each operation keeps of it, and the counters within it. -/

namespace Sys2Proof

theorem Geometry.rec_le_expectedLen {g : Geometry} {y : Nat} (hy : y < g.height) :
    y * g.recLen + g.recLen ≤ g.expectedLen := by
  have : (y + 1) * g.recLen ≤ g.height * g.recLen := Nat.mul_le_mul_right _ hy
  rw [Nat.add_mul, Nat.one_mul] at this
  exact this

namespace Machine

/-- The bytes of a row lie inside RASTER (R63). -/
theorem InRow.lt {g : Geometry} {y n a : Nat} (h : InRow g y 0 n a) (hy : y < g.height) (hn : n ≤ g.width) :
    a < g.height * g.width * g.bpp := by
  obtain ⟨j, k, hj, hk, rfl⟩ := h
  exact rasterAddr_lt hy (by omega) hk

theorem OutFilled.appendOut {s : State} (h : OutFilled s) (bs : List Byte) : OutFilled (s.appendOut bs) :=
  map_fst_writeAll bs h

section
variable {s : State} (h : ¬ s.inPos.toNat + s.geometry.recLen > s.inLen.toNat)
include h

/-- A LOAD step lists no address of RASTER outside its row that was not listed before. -/
theorem mem_loadRecord {c : Host.Cell} (hc : c ∈ (loadRecord s).raster.cells) :
    InRow s.geometry s.posY.toNat 0 s.geometry.width c.1 ∨ c ∈ s.raster.cells := by
  obtain ⟨ras, hr, e⟩ := loadRecord_eq h
  rw [e] at hc
  have hc' : c ∈ (loadPixels s.posY.toNat s.inPos.toNat s.geometry.width 0
      (s.writeFt s.posY.toNat (s.readByte .input s.inPos.toNat))).raster.cells := by rw [hr]; exact hc
  exact mem_loadPixels (s := s.writeFt s.posY.toNat (s.readByte .input s.inPos.toNat)) hc'

theorem loadRecord_raster_wf (hw : s.raster.wf) : (loadRecord s).raster.wf := by
  obtain ⟨ras, hr, e⟩ := loadRecord_eq h
  have hp : (loadPixels s.posY.toNat s.inPos.toNat s.geometry.width 0
      (s.writeFt s.posY.toNat (s.readByte .input s.inPos.toNat))).raster.wf := loadPixels_wf hw
  rw [hr] at hp
  rw [e]
  exact hp

end

/-- POS_Y does not wrap below 0 while a row is left to emit (R27). -/
theorem posY_pred {s : State} (h : 0 < s.posY.toNat) : (s.posY - 1).toNat = s.posY.toNat - 1 := by
  have := s.posY.isLt
  rw [BitVec.toNat_sub]
  simp
  omega

/-- The state with its host queue replaced meets the invariant if the state does. -/
theorem Inv.withQueue {s : State} (h : Inv s) (rest : List HostOp) : Inv { s with hostQueue := rest } :=
  ⟨h.inputWf, h.ftWf, h.rasterWf, h.outWf, h.outFilled, h.inBounds, h.position⟩

/-- While a run is in progress a rule of the sequencer is enabled (R198). -/
theorem exists_rule_of_busy {s : State} (hi : Inv s) (hb : s.busy = true) : ∃ t, SequencerRule s t := by
  have hpos := hi.position
  rcases busy_iff.1 hb with hp | hp | hp <;> simp only [PositionOk, hp] at hpos
  · rcases Nat.lt_or_eq_of_le hpos.2.1 with hy | hy
    · by_cases h : s.inPos.toNat + s.geometry.recLen > s.inLen.toNat
      · exact ⟨_, .truncated hp hy h⟩
      · exact ⟨_, .fetch hp hy h⟩
    · exact ⟨_, .loadEnd hp hy⟩
  · rcases Nat.lt_or_eq_of_le hpos.2.1 with hy | hy
    · cases hd : decodeRecord (s.readByte .ft s.posY.toNat) (s.readRow s.posY.toNat) with
      | none => exact ⟨_, .badFilter hp hy (decodeRecord_eq_none.1 hd)⟩
      | some i => exact ⟨_, .execute hp hy i (decodeRecord_eq_some.1 hd).1 (decodeRecord_eq_some.1 hd).2⟩
    · exact ⟨_, .reconEnd hp hy⟩
  · obtain ⟨-, -, hx, -, -, -, ho, -⟩ := hpos
    by_cases h0 : s.outLen = 0
    · exact ⟨_, .emitHeader hp h0⟩
    · have h54 : 54 ≤ s.outLen := by rcases ho with ⟨h, -⟩ | h <;> omega
      by_cases hy : s.posY.toNat = 0
      · exact ⟨_, .emitEnd hp h54 hy⟩
      · rcases Nat.lt_or_eq_of_le hx with hx | hx
        · exact ⟨_, .emitPixel hp h54 (by omega) hx⟩
        · exact ⟨_, .emitPad hp h54 (by omega) hx⟩

/-- A rule of the sequencer never leads to IDLE (R26). -/
theorem SequencerRule.phase_ne_idle {s t : State} (h : SequencerRule s t) : t.phase ≠ .idle := by
  cases h with
  | fetch hp hy h =>
    obtain ⟨ras, -, e⟩ := loadRecord_eq h
    rw [e]
    simp [hp]
  | execute hp hy i =>
    obtain ⟨_, _, _, _, ras, e⟩ := reconRow_frame (pixelOp s.params.paethWiden i) i.pixels s
    rw [e]
    simp [hp]
  | truncated | badFilter => simp [raise]
  | loadEnd | reconEnd | emitEnd => simp
  | emitHeader hp | emitPixel hp | emitPad hp => simp [hp]

/-- What a rule of the sequencer does to OUT: nothing, or bytes at its end (R54). -/
theorem SequencerRule.outBytes {s t : State} (h : SequencerRule s t) :
    ∃ bs, t.outBytes = s.outBytes ++ bs ∧ t.outLen = s.outLen + bs.length := by
  have k := h.keeps
  cases h with
  | emitHeader | emitPixel | emitPad => exact ⟨_, outBytes_appendOut .., rfl⟩
  | emitEnd => exact ⟨[], by rw [List.append_nil]; exact outBytes_congr rfl rfl rfl, rfl⟩
  | fetch hp | truncated hp | loadEnd hp | execute hp | badFilter hp | reconEnd hp =>
    have hne : s.phase ≠ .emit := by simp [hp]
    exact ⟨[], by rw [outBytes_congr (k.out hne) (k.outLen hne) k.epoch, List.append_nil], k.outLen hne⟩

/-- A run of one step more. -/
theorem run_succ {s t : core.State} (h : core.step s = .next t) (k : Nat) :
    Host.Core.run core (k + 1) s = Host.Core.run core k t := by
  rw [Host.Core.run, h]

end Machine

end Sys2Proof
end

