-- ==== Sys2Proof/Laws/PerInstr.lean ====
section
/-! SUPPORT. Statements for all instructions, one lemma per instruction: record lengths and the opcode map. -/

namespace Sys2Proof.Laws

namespace RecordLength

/-- A well-formed record encodes to `REC_LEN` bytes, whatever its opcode (R76, R77). -/
def Statement (i : Instr) : Prop := ∀ g : Geometry, WellFormed g i → (encode i).length = g.recLen

theorem of_pixels (i : Instr) : Statement i := by
  intro g h
  obtain ⟨hw, hp⟩ := Machine.wellFormed_iff.1 h
  rw [encode, List.length_cons, flatten_length_of_pixels hp, hw, Geometry.recLen, Nat.add_comm]

theorem none (pix : List Pixel) : Statement (.none pix) := of_pixels _
theorem sub (pix : List Pixel) : Statement (.sub pix) := of_pixels _
theorem up (pix : List Pixel) : Statement (.up pix) := of_pixels _
theorem average (pix : List Pixel) : Statement (.average pix) := of_pixels _
theorem paeth (pix : List Pixel) : Statement (.paeth pix) := of_pixels _

end RecordLength

namespace OpcodeMap

/-- The opcode byte of an instruction, with its pixels, decodes to it, and is at most 4 (R81). -/
def Statement (i : Instr) : Prop := decodeRecord (opcodeByte i) i.pixels = some i ∧ (opcodeByte i).toNat ≤ 4

theorem none (pix : List Pixel) : Statement (.none pix) := ⟨rfl, by simp [opcodeByte]⟩
theorem sub (pix : List Pixel) : Statement (.sub pix) := ⟨rfl, by simp [opcodeByte]⟩
theorem up (pix : List Pixel) : Statement (.up pix) := ⟨rfl, by simp [opcodeByte]⟩
theorem average (pix : List Pixel) : Statement (.average pix) := ⟨rfl, by simp [opcodeByte]⟩
theorem paeth (pix : List Pixel) : Statement (.paeth pix) := ⟨rfl, by simp [opcodeByte]⟩

end OpcodeMap

end Sys2Proof.Laws
end

