-- ==== Sys2Proof/Tests/Slice0.lean ====
section
/-! SUPPORT. The model's own tests, on the vectors of spec/95_test_vectors.md, and for each statement with hypotheses a state that meets them. -/

namespace Sys2Proof.Tests

open Machine

/-! ### Well-formedness: an ill-formed record for each check -/

theorem test_wf_accepts : Instr.wf ⟨2, 1, .rgb⟩ (.sub [[1, 2, 3], [4, 5, 6]]) = true := by decide
theorem test_wf_refuses_missing_pixel : Instr.countWf ⟨2, 1, .rgb⟩ (.sub [[1, 2, 3]]) = false := by decide
theorem test_wf_refuses_extra_pixel : Instr.wf ⟨0, 1, .rgb⟩ (.up [[1, 2, 3]]) = false := by decide
theorem test_wf_refuses_rgba_pixel_under_rgb : Pixel.wf .rgb [1, 2, 3, 4] = false := by decide
theorem test_wf_refuses_short_pixel : Instr.pixelsWf ⟨2, 1, .rgba⟩ (.none [[1, 2, 3, 4], [5, 6, 7]]) = false := by
  decide

/-! ### Decoding: the bytes of each record written out from R76 to R81 -/

/-- P2, first record: opcode 0x01, three RGB pixels. -/
theorem test_decode_sub : decode ⟨3, 2, .rgb⟩ [0x01, 0x0A, 0x14, 0x1E, 0xFA, 0x0A, 0x05, 0x0A, 0xFA, 0x01] =
    .ok (.sub [[10, 20, 30], [250, 10, 5], [10, 250, 1]], []) := by decide

/-- P3, the three records: opcodes 0x00, 0x03 and 0x04, two RGBA pixels. -/
theorem test_decode_none_then_average :
    decode ⟨2, 3, .rgba⟩ [0x00, 0x64, 0x96, 0xC8, 0xFF, 0x32, 0x3C, 0x46, 0x80, 0x03] =
      .ok (.none [[100, 150, 200, 255], [50, 60, 70, 128]], [0x03]) := by decide
theorem test_decode_average : decode ⟨2, 3, .rgba⟩ [0x03, 0x0A, 0x14, 0x1E, 0x28, 0xC8, 0xC8, 0xC8, 0xC8] =
    .ok (.average [[10, 20, 30, 40], [200, 200, 200, 200]], []) := by decide
theorem test_decode_paeth : decode ⟨2, 3, .rgba⟩ [0x04, 0x01, 0x02, 0x03, 0x04, 0xFF, 0xFE, 0xFD, 0xFC] =
    .ok (.paeth [[1, 2, 3, 4], [255, 254, 253, 252]], []) := by decide

/-- P4, first record: opcode 0x02. -/
theorem test_decode_up : decode ⟨1, 3, .rgb⟩ [0x02, 0xC8, 0x64, 0x32] = .ok (.up [[200, 100, 50]], []) := by decide

/-- F8, F9: 0x05 and 0x81 are no opcodes. L9: a record without its pixels is truncated. -/
theorem test_decode_refuses_05 : decode ⟨1, 1, .rgb⟩ [0x05, 1, 2, 3] = .error (.unsupportedFilterType 5) := by decide
theorem test_decode_refuses_81 : decode ⟨1, 1, .rgb⟩ [0x81, 1, 2, 3] = .error (.unsupportedFilterType 0x81) := by
  decide
theorem test_decode_refuses_truncated : decode ⟨2, 2, .rgb⟩ [0x00] = .error .truncated := by decide

/-- The table's five words of one byte, its first word the opcode, the operand bytes zero. -/
theorem test_table_words :
    decodeTableWord 8 0x00 = some (.none [[0, 0, 0]]) ∧ decodeTableWord 8 0x01 = some (.sub [[0, 0, 0]]) ∧
    decodeTableWord 8 0x02 = some (.up [[0, 0, 0]]) ∧ decodeTableWord 8 0x03 = some (.average [[0, 0, 0]]) ∧
    decodeTableWord 8 0x04 = some (.paeth [[0, 0, 0]]) ∧ decodeTableWord 8 0x05 = none := by decide
theorem test_table_word_with_operands : decodeTableWord 32 0x1E140A03 = some (.average [[10, 20, 30]]) := by decide

/-! ### States to test on -/

/-- A state of a run of `w` by `h` pixels: phase `p`, row `y`, IN_POS `at'`, and what IN, FT and RASTER
hold from address 0 on. -/
def runState (w h : Nat) (c : ColorType) (p : Phase) (y at' : Nat) (inp ft ras : List Byte) : State :=
  { State.reset with
    phase := p
    posY := BitVec.ofNat 32 y
    cfgWidth := BitVec.ofNat 32 w
    cfgHeight := BitVec.ofNat 32 h
    cfgColor := c
    inLen := BitVec.ofNat 32 inp.length
    inPos := BitVec.ofNat 32 at'
    input := Memory.empty.writeAll 0 inp
    ft := Memory.empty.writeAll 0 ft
    raster := Memory.empty.writeAll 0 ras }

/-- RECON at row 1 of two, the row above being that of DV-RT. -/
def rtState : State := runState 2 2 .rgb .recon 1 14 [] [] [10, 20, 30, 40, 50, 60]

/-- The row `y` that an outcome leaves. -/
def rowOf (y : Nat) (o : Host.Outcome State Fault Refusal) : List Pixel :=
  match o with
  | .next t => t.readRow y
  | .fault _ => []
  | .refused _ => []

/-! ### The instructions: DV-RT, and one more vector each -/

theorem test_none_roundtrip :
    rowOf 1 (exec (.none [[15, 25, 35], [200, 100, 50]]) rtState) = [[15, 25, 35], [200, 100, 50]] := by decide
theorem test_none_reads_no_neighbour :
    rowOf 1 (exec (.none [[7, 8, 9], [0, 128, 255]]) rtState) = [[7, 8, 9], [0, 128, 255]] := by decide
theorem test_sub_roundtrip :
    rowOf 1 (exec (.sub [[15, 25, 35], [185, 75, 15]]) rtState) = [[15, 25, 35], [200, 100, 50]] := by decide
/-- S1. -/
theorem test_sub_wraps : rowOf 0 (exec (.sub [[10, 20, 30], [250, 10, 5], [10, 250, 1]])
    (runState 3 2 .rgb .recon 0 20 [] [] [])) = [[10, 20, 30], [4, 30, 35], [14, 24, 36]] := by decide
theorem test_up_roundtrip :
    rowOf 1 (exec (.up [[5, 5, 5], [160, 50, 246]]) rtState) = [[15, 25, 35], [200, 100, 50]] := by decide
/-- U1. -/
theorem test_up_in_row_0 :
    rowOf 0 (exec (.up [[200, 100, 50]]) (runState 1 1 .rgb .recon 0 4 [] [] [])) = [[200, 100, 50]] := by decide
theorem test_average_roundtrip :
    rowOf 1 (exec (.average [[10, 15, 20], [173, 63, 3]]) rtState) = [[15, 25, 35], [200, 100, 50]] := by decide
/-- A3, A4: the nine-bit sum. -/
theorem test_average_keeps_the_carry : rowOf 1 (exec (.average [[10, 20, 30, 40], [200, 200, 200, 200]])
    (runState 2 3 .rgba .recon 1 27 [] [] [100, 150, 200, 255, 50, 60, 70, 128])) =
      [[60, 95, 130, 167], [255, 21, 44, 91]] := by decide
theorem test_paeth_roundtrip :
    rowOf 1 (exec (.paeth [[5, 5, 5], [160, 50, 246]]) rtState) = [[15, 25, 35], [200, 100, 50]] := by decide
/-- DV-PAETHROW: the three lanes choose three different neighbours. -/
theorem test_paeth_chooses_per_lane : rowOf 1 (exec (.paeth [[5, 5, 5], [250, 250, 250], [1, 2, 3]])
    (runState 3 2 .rgb .recon 1 20 [] [] [10, 20, 30, 4, 30, 35, 14, 24, 36])) =
      [[15, 25, 35], [4, 24, 29], [15, 26, 32]] := by decide

/-- DV-PAETH: ties, the range of `p`, and the two widenings (P7). -/
theorem test_paeth_vectors :
    paeth .zext 11 8 10 = 8 ∧ paeth .zext 8 11 10 = 8 ∧ paeth .zext 50 60 55 = 55 ∧ paeth .zext 61 255 60 = 255 ∧
    paeth .zext 0 0 255 = 0 ∧ paeth .zext 128 127 0 = 128 ∧ paeth .sext8 128 127 0 = 0 ∧
    paeth .zext 100 200 150 = 150 ∧ paeth .sext8 100 200 150 = 100 := by decide

/-- DV-AVG. -/
theorem test_avg_vectors :
    avg 10 11 = 10 ∧ avg 200 100 = 150 ∧ avg 255 254 = 254 ∧ avg 255 255 = 255 ∧ avg 1 0 = 0 := by decide

/-! ### The other steps, one step each -/

/-- What a test looks at in an outcome. -/
def observe {α : Type} (f : State → α) (o : Host.Outcome State Fault Refusal) : Option α :=
  match o with
  | .next t => some (f t)
  | .fault _ => none
  | .refused _ => none

/-- A placed table word runs as the first instruction: F7, one PAETH pixel in row 0, where PAETH adds 0. -/
theorem test_placed_table_word_runs :
    step (State.reset.withFetchWord 32 0x0C0B0A04) =
      exec (.paeth [[0x0A, 0x0B, 0x0C]]) (State.reset.withFetchWord 32 0x0C0B0A04) ∧
    observe (fun t => (t.readRow 0, t.posY)) (step (State.reset.withFetchWord 32 0x0C0B0A04)) =
      some ([[0x0A, 0x0B, 0x0C]], 1) := ⟨rfl, by decide⟩

/-- L1. -/
theorem test_load_fetches :
    observe (fun t => (t.readByte .ft 0, t.readRow 0, t.inPos, t.posY))
      (step (runState 2 1 .rgb .load 0 0 [0x03, 1, 2, 3, 4, 5, 6] [] [])) =
        some (0x03, [[1, 2, 3], [4, 5, 6]], 7, 1) := by decide

/-- L3: an illegal filter-type byte is stored unchecked. -/
theorem test_load_does_not_check_the_opcode :
    observe (fun t => (t.phase, t.readByte .ft 0))
      (step (runState 1 2 .rgb .load 0 0 [0x09, 1, 2, 3, 0xFF, 4, 5, 6] [] [])) = some (.load, 0x09) := by decide

/-- F2, F3: truncation at row 1, with the two counts. -/
theorem test_truncated :
    observe (fun t => (t.phase, t.faultCode, t.faultExpected, t.faultActual, t.posY, t.inPos))
      (step (runState 2 2 .rgb .load 1 7 [0x09, 1, 2, 3, 4, 5, 6, 7, 1, 2] [0x09] [1, 2, 3, 4, 5, 6])) =
        some (.fault, 1, 14, 10, 1, 7) := by decide

/-- F4: the opcode is checked although the row has no pixels. -/
theorem test_bad_filter_in_an_empty_row :
    observe (fun t => (t.phase, t.faultCode, t.faultValue, t.posY))
      (step (runState 0 1 .rgb .recon 0 1 [0x07] [0x07] [])) = some (.fault, 2, 0x07, 0) := by decide

/-- DV-HDR, 300 by 200. -/
theorem test_header : fileHeader ⟨300, 200, .rgb⟩ ++ infoHeader ⟨300, 200, .rgb⟩ =
    [0x42, 0x4D, 0x56, 0xBF, 0x02, 0x00, 0x00, 0x00, 0x00, 0x00, 0x36, 0x00, 0x00, 0x00, 0x28, 0x00, 0x00, 0x00,
     0x2C, 0x01, 0x00, 0x00, 0xC8, 0x00, 0x00, 0x00, 0x01, 0x00, 0x18, 0x00, 0x00, 0x00, 0x00, 0x00, 0x20, 0xBF,
     0x02, 0x00] ++ List.replicate 16 0x00 := by decide

/-- DV-PIX: blue, green, red, the alpha dropped. -/
theorem test_bgr : bgr [0x64, 0x96, 0xC8, 0xFF] = [0xC8, 0x96, 0x64] := by decide

/-- DV-PAD and the lengths beside it. -/
theorem test_pad :
    (List.range 9).map (fun w => Geometry.pad ⟨w, 1, .rgb⟩ .outputDepth) = [0, 1, 2, 3, 0, 1, 2, 3, 0] ∧
    (List.range 9).map (fun w => Geometry.pad ⟨w, 1, .rgb⟩ .sourceDepth) = [0, 1, 2, 3, 0, 1, 2, 3, 0] ∧
    (List.range 9).map (fun w => Geometry.pad ⟨w, 1, .rgba⟩ .sourceDepth) = [0, 0, 0, 0, 0, 0, 0, 0, 0] ∧
    Geometry.fileSizeField ⟨1, 3, .rgb⟩ = 63 ∧ Geometry.outTotal ⟨1, 3, .rgb⟩ .outputDepth = 66 := by decide

/-- EMIT one row below the top: P1's last raster row comes first, its columns ascending. -/
theorem test_emit_pixel :
    observe (fun t => (t.outBytes.drop 54, t.posX))
      (step { runState 2 2 .rgb .emit 2 14 [] [] [255, 0, 0, 0, 255, 0, 0, 0, 255, 255, 255, 255] with
        out := Memory.empty.writeAll 0 (List.replicate 54 0), outLen := 54 }) = some ([0xFF, 0, 0], 1) := by decide

/-- K6, K8, K9, K10. -/
theorem test_status :
    (runState 1 1 .rgb .done 0 4 [] [] []).readReg .status = 0x0C ∧
    (runState 1 1 .rgb .fault 0 4 [] [] []).readReg .status = 0x15 ∧ State.reset.readReg .status = 0 ∧
    observe (fun t => t.readReg .cfgColor)
      (step { State.reset with hostQueue := [.write .cfgColor 0xFFFFFFFF] }) = some 1 := by decide

/-! ### Witnesses: a state and operands that meet the hypotheses of each statement -/

/-- RECON at row 1 of two, one RGB pixel a row, the record of row 1 being `ft` 4 5 6. -/
def reconAt (ft : Byte) : State := runState 1 2 .rgb .recon 1 8 [0, 1, 2, 3, ft, 4, 5, 6] [0, ft] [1, 2, 3, 4, 5, 6]

/-- EMIT with `n` bytes out, at row `y` and column `x` of a two-row image of one RGB pixel a row. -/
def emitAt (n y x : Nat) : State :=
  { runState 1 2 .rgb .emit y 8 [0, 1, 2, 3, 0, 4, 5, 6] [0, 0] [1, 2, 3, 4, 5, 6] with
    posX := BitVec.ofNat 32 x, outLen := n, out := Memory.empty.writeAll 0 (List.replicate n 0) }

/-- LOAD at row `y`, two rows of one RGB pixel, IN holding `inp`. -/
def loadAt (y : Nat) (inp : List Byte) : State := runState 1 2 .rgb .load y (4 * y) inp [] []

/-- A state with host operations pending. -/
def withOps (s : State) (ops : List HostOp) : State := { s with hostQueue := ops }

theorem test_witness_DecodeOfEncodeIsTheRecord :
    WellFormed ⟨2, 1, .rgba⟩ (.paeth [[1, 2, 3, 4], [255, 254, 253, 252]]) ∧ WellFormed ⟨0, 1, .rgb⟩ (.none []) := by
  decide

theorem test_witness_DecodeAcceptsExactlyTheLegalRecords :
    [0, 1, 2].length < Geometry.recLen ⟨1, 1, .rgb⟩ ∧ Geometry.recLen ⟨1, 1, .rgb⟩ ≤ [5, 1, 2, 3].length ∧
    4 < (5 : Byte).toNat ∧ 4 < (255 : Byte).toNat ∧ (4 : Byte).toNat ≤ 4 := by decide

theorem test_witness_PixelOperandsStandAtTheirOffsets :
    decode ⟨2, 1, .rgba⟩ [0, 1, 2, 3, 4, 5, 6, 7, 8] = .ok (.none [[1, 2, 3, 4], [5, 6, 7, 8]], []) ∧
    (1 < Geometry.width ⟨2, 1, .rgba⟩) ∧ 3 < Geometry.bpp ⟨2, 1, .rgba⟩ := by decide

theorem test_witness_PlacedTableWordIsExecutedNext : decodeTableWord 8 4 = some (.paeth [[0, 0, 0]]) := by decide

theorem test_witness_StepExecutesTheDecodedRecord :
    (reconAt 4).phase = .recon ∧ (reconAt 4).posY.toNat < (reconAt 4).geometry.height ∧
    decode (reconAt 4).geometry (reconAt 4).fetchedRecord = .ok (.paeth [[4, 5, 6]], []) ∧
    (reconAt 4).hostQueue = [] ∧ (withOps (reconAt 4) [.wait]).hostQueue = [.wait] ∧
    decode (withOps (reconAt 4) [.wait]).geometry (withOps (reconAt 4) [.wait]).fetchedRecord =
      .ok (.paeth [[4, 5, 6]], []) := by decide

/-- The row statements: row 1 and column 1, the last of two; and row 0. -/
theorem test_witness_of_the_row_statements :
    rtState.posY.toNat < rtState.geometry.height ∧ 2 < rtState.geometry.bpp ∧
    WellFormed rtState.geometry (.none [[15, 25, 35], [200, 100, 50]]) ∧
    WellFormed rtState.geometry (.sub [[15, 25, 35], [185, 75, 15]]) ∧
    WellFormed rtState.geometry (.up [[5, 5, 5], [160, 50, 246]]) ∧
    WellFormed rtState.geometry (.average [[10, 15, 20], [173, 63, 3]]) ∧
    WellFormed rtState.geometry (.paeth [[5, 5, 5], [160, 50, 246]]) ∧
    (runState 1 1 .rgb .recon 0 4 [] [] []).posY.toNat < (runState 1 1 .rgb .recon 0 4 [] [] []).geometry.height := by
  decide

/-- Address 0 lies outside row 1 of `rtState`. -/
theorem test_witness_RowStepFrame :
    (∃ t, exec (.sub [[15, 25, 35], [185, 75, 15]]) rtState = .next t) ∧ rtState.cfgColor = .rgb ∧
    WellFormed rtState.geometry (.sub [[15, 25, 35], [185, 75, 15]]) ∧
    ∀ x, x < 2 → ∀ k, k < 3 → 0 ≠ rasterAddr rtState.geometry rtState.posY.toNat x k :=
  ⟨⟨_, rfl⟩, rfl, by decide, by decide⟩

theorem test_witness_IllegalFilterTypeEntersFault :
    (reconAt 5).hostQueue = [] ∧ (reconAt 5).phase = .recon ∧
    (reconAt 5).posY.toNat < (reconAt 5).geometry.height ∧
    4 < ((reconAt 5).readByte .ft (reconAt 5).posY.toNat).toNat := by decide

/-- Lane 0 alike, lanes 1 and 2 not, in the record and in the row above. -/
theorem test_witness_LanesNeverMix :
    WellFormed rtState.geometry (.up [[1, 2, 3], [4, 5, 6]]) ∧ WellFormed rtState.geometry (.up [[1, 9, 9], [4, 9, 9]]) ∧
    (runState 2 2 .rgb .recon 1 14 [] [] [10, 0, 0, 40, 0, 0]).geometry = rtState.geometry ∧
    (∀ x, x < 2 → lane ([[1, 2, 3], [4, 5, 6]].getD x []) 0 = lane ([[1, 9, 9], [4, 9, 9]].getD x []) 0) ∧
    ∀ x, x < 2 → rtState.rasterByte 0 x 0 =
      (runState 2 2 .rgb .recon 1 14 [] [] [10, 0, 0, 40, 0, 0]).rasterByte 0 x 0 := by decide

theorem test_witness_PredictorsAtTheEdges :
    WellFormed (runState 2 1 .rgb .recon 0 7 [] [] []).geometry (.sub [[1, 2, 3], [4, 5, 6]]) ∧
    (runState 2 1 .rgb .recon 0 7 [] [] []).posY = 0 ∧
    WellFormed rtState.geometry (.sub [[1, 2, 3], [4, 5, 6]]) ∧ 0 < rtState.posY.toNat := by decide

/-- DV-RT, row 1 by SUB: the true bytes, and the encoded ones as their differences. -/
theorem test_witness_ReconstructionInvertsTheForwardFilter :
    let tr : Nat → Nat → Nat → Byte := fun y x k =>
      ((([[[10, 20, 30], [40, 50, 60]], [[15, 25, 35], [200, 100, 50]]] : List (List Pixel)).getD y []).getD x []).getD k 0
    WellFormed rtState.geometry (.sub [[15, 25, 35], [185, 75, 15]]) ∧
    (∀ x, x < 2 → ∀ k, k < 3 → rtState.rasterByte 0 x k = tr 0 x k) ∧
    ∀ x, x < 2 → ∀ k, k < 3 → lane ([[15, 25, 35], [185, 75, 15]].getD x []) k =
      tr 1 x k - predictor .zext (opcodeByte (.sub [])) (if x > 0 then tr 1 (x - 1) k else 0) (tr 0 x k)
        (if x > 0 then tr 0 (x - 1) k else 0) := by decide

theorem test_witness_OperandRegistersHoldTheNeighbours :
    ([4, 5, 6] : Pixel).length = rtState.geometry.bpp ∧ 2 < rtState.geometry.bpp ∧ rtState.cfgColor = .rgb := by
  decide

/-- DV-PAETH: a triple for each of the three clauses, under both widenings. -/
theorem test_witness_PaethChoosesTheNearestCandidate :
    let d := fun (w : PaethWiden) (a b c v : Byte) => |widen w a + widen w b - widen w c - widen w v|
    (d .zext 2 2 1 2 ≤ d .zext 2 2 1 2 ∧ d .zext 2 2 1 2 ≤ d .zext 2 2 1 1) ∧
    (d .zext 11 8 10 8 < d .zext 11 8 10 11 ∧ d .zext 11 8 10 8 ≤ d .zext 11 8 10 10) ∧
    (d .zext 50 60 55 55 < d .zext 50 60 55 50 ∧ d .zext 50 60 55 55 < d .zext 50 60 55 60) ∧
    d .sext8 128 127 0 0 < d .sext8 128 127 0 128 := by decide

theorem test_witness_PaethWideningsAgreeBelow128 : (127 : Byte).toNat < 128 ∧ (0 : Byte).toNat < 128 := by decide

theorem test_witness_LoadStepFetchesOneRecord :
    (loadAt 1 [0, 1, 2, 3, 9, 4, 5, 6]).hostQueue = [] ∧ (loadAt 1 [0, 1, 2, 3, 9, 4, 5, 6]).phase = .load ∧
    (loadAt 1 [0, 1, 2, 3, 9, 4, 5, 6]).posY.toNat < (loadAt 1 [0, 1, 2, 3, 9, 4, 5, 6]).geometry.height ∧
    (loadAt 1 [0, 1, 2, 3, 9, 4, 5, 6]).inPos.toNat + (loadAt 1 [0, 1, 2, 3, 9, 4, 5, 6]).geometry.recLen =
      (loadAt 1 [0, 1, 2, 3, 9, 4, 5, 6]).inLen.toNat ∧
    0 ≠ (loadAt 1 [0, 1, 2, 3, 9, 4, 5, 6]).posY.toNat := by decide

theorem test_witness_TruncatedInputEntersFault :
    (loadAt 1 [0, 1, 2, 3, 9, 4, 5]).hostQueue = [] ∧ (loadAt 1 [0, 1, 2, 3, 9, 4, 5]).phase = .load ∧
    (loadAt 1 [0, 1, 2, 3, 9, 4, 5]).posY.toNat < (loadAt 1 [0, 1, 2, 3, 9, 4, 5]).geometry.height ∧
    (loadAt 1 [0, 1, 2, 3, 9, 4, 5]).legal = true ∧
    (loadAt 1 [0, 1, 2, 3, 9, 4, 5]).inLen.toNat + 1 =
      (loadAt 1 [0, 1, 2, 3, 9, 4, 5]).inPos.toNat + (loadAt 1 [0, 1, 2, 3, 9, 4, 5]).geometry.recLen := by decide

theorem test_witness_PhasesFollowOneAnother :
    (loadAt 2 []).hostQueue = [] ∧ (loadAt 2 []).posY.toNat = (loadAt 2 []).geometry.height ∧
    (loadAt 2 []).phase = .load ∧
    (runState 1 2 .rgb .recon 2 8 [] [] []).posY.toNat = (runState 1 2 .rgb .recon 2 8 [] [] []).geometry.height ∧
    (runState 1 2 .rgb .recon 2 8 [] [] []).phase = .recon ∧
    (reconAt 4).hostQueue = [] ∧ (reconAt 4).posY.toNat < (reconAt 4).geometry.height ∧
    observe (fun t => t.phase) (step (reconAt 4)) = some .recon ∧
    observe (fun t => t.phase) (step (loadAt 1 [0, 1, 2, 3, 9, 4, 5])) = some .fault := by decide

theorem test_witness_EmitWritesTheHeaderFirst :
    (emitAt 0 2 0).hostQueue = [] ∧ (emitAt 0 2 0).phase = .emit ∧ (emitAt 0 2 0).outLen = 0 := by decide

theorem test_witness_Le32IsLittleEndian : (4294967295 : Nat) < 2 ^ 32 := by decide

theorem test_witness_EmitWritesBlueGreenRed :
    (emitAt 54 1 0).hostQueue = [] ∧ (emitAt 54 1 0).phase = .emit ∧ 54 ≤ (emitAt 54 1 0).outLen ∧
    0 < (emitAt 54 1 0).posY.toNat ∧ (emitAt 54 1 0).posX.toNat < (emitAt 54 1 0).geometry.width := by decide

theorem test_witness_EmitPadsTheRow :
    (emitAt 57 1 1).hostQueue = [] ∧ (emitAt 57 1 1).phase = .emit ∧ 54 ≤ (emitAt 57 1 1).outLen ∧
    0 < (emitAt 57 1 1).posY.toNat ∧ (emitAt 57 1 1).posX.toNat = (emitAt 57 1 1).geometry.width := by decide

theorem test_witness_EmitEndsInDone :
    (emitAt 62 0 0).hostQueue = [] ∧ (emitAt 62 0 0).phase = .emit ∧ 54 ≤ (emitAt 62 0 0).outLen ∧
    (emitAt 62 0 0).posY = 0 := by decide

theorem test_witness_PaddingMakesRowsMultiplesOfFour :
    Geometry.color ⟨1, 1, .rgb⟩ = .rgb ∧ Geometry.color ⟨1, 1, .rgba⟩ = .rgba := by decide

theorem test_witness_PixelWriteIsReadBack :
    ([7, 8, 9] : Pixel).length = rtState.geometry.bpp ∧
    (∀ k, k < rtState.geometry.bpp → 6 ≠ rasterAddr rtState.geometry 0 1 k) ∧ rtState.raster.wf := by decide

theorem test_witness_RasterAddressesAreDistinct :
    1 < rtState.geometry.width ∧ 2 < rtState.geometry.bpp ∧ 1 < rtState.geometry.height ∧
    rasterAddr rtState.geometry 1 1 2 = rasterAddr rtState.geometry 1 1 2 := by decide

theorem not_resetPending_of_nil {s : State} (h : s.hostQueue = []) : ¬ ResetPending s := by
  rintro ⟨v, rest, e, -⟩
  simp [h] at e

theorem test_witness_OutIsAppendOnly :
    (emitAt 54 1 0).phase ≠ .idle ∧ ¬ ResetPending (emitAt 54 1 0) ∧ ∃ t, step (emitAt 54 1 0) = .next t :=
  ⟨by decide, not_resetPending_of_nil rfl, _, rfl⟩

theorem test_witness_StepsWriteOnlyTheirSpaces :
    (emitAt 54 1 0).hostQueue = [] ∧ (emitAt 54 1 0).phase = .emit ∧
    observe (fun t => t.phase) (step (emitAt 54 1 0)) = some .emit ∧
    (reconAt 4).phase ≠ .load ∧ (reconAt 4).phase ≠ .emit ∧
    observe (fun t => t.phase) (step (reconAt 4)) = some .recon := by decide

theorem test_witness_ParametersNeverChange :
    observe (fun t => t.phase) (step (withOps State.reset [.write .ctrl 2])) = some .idle := by decide

theorem test_witness_ResetIsAcceptedInEveryPhase :
    (withOps (reconAt 4) [.write .ctrl 3]).hostQueue = [.write .ctrl 3] ∧ BitVec.getLsbD (3 : Word) 1 = true ∧
    BitVec.getLsbD (2 : Word) 1 = true := by decide

/-- The 2^32 limit of R10 makes a configuration illegal. -/
theorem test_witness_StartIsAcceptedInIdleOnly :
    BitVec.getLsbD (1 : Word) 1 = false ∧ BitVec.getLsbD (1 : Word) 0 = true ∧
    State.reset.phase = .idle ∧ State.reset.legal = true ∧
    (runState 65536 65536 .rgb .idle 0 0 [] [] []).legal = false ∧ (reconAt 4).phase ≠ .idle := by decide

theorem test_witness_ConfigurationIsWrittenInIdleOnly :
    (withOps State.reset [.write .cfgColor 1]).hostQueue = [.write .cfgColor 1] ∧ State.reset.phase = .idle ∧
    (runState 1 1 .rgb .done 0 4 [] [] []).phase ≠ .idle := by decide

theorem test_witness_ConfigurationIsFrozenDuringTheRun :
    (withOps (reconAt 4) [.write .cfgWidth 5]).phase ≠ .idle ∧ ¬ ResetPending (withOps (reconAt 4) [.write .cfgWidth 5]) ∧
    ∃ t, step (withOps (reconAt 4) [.write .cfgWidth 5]) = .next t :=
  ⟨by decide, fun ⟨_, _, e, _⟩ => by simp [withOps] at e, _, rfl⟩

theorem test_witness_ReadOnlyRegistersIgnoreWrites :
    (withOps (reconAt 4) [.write .status 5]).hostQueue = [.write .status 5] ∧ Reg.status ≠ .cfgWidth ∧
    Reg.status ≠ .cfgHeight ∧ Reg.status ≠ .cfgColor ∧ Reg.status ≠ .inLen ∧ Reg.status ≠ .ctrl := by decide

theorem test_witness_HostPlacesTheInput :
    (withOps State.reset [.place [1, 2]]).hostQueue = [.place [1, 2]] ∧ State.reset.busy = false ∧
    (reconAt 4).busy = true := by decide

/-- K3: START in DONE. -/
theorem test_witness_OnlyResetLeavesTheEnd :
    Ended (withOps (runState 1 1 .rgb .done 0 4 [] [] []) [.write .ctrl 1]) ∧
    ¬ ResetPending (withOps (runState 1 1 .rgb .done 0 4 [] [] []) [.write .ctrl 1]) ∧
    ∃ t, step (withOps (runState 1 1 .rgb .done 0 4 [] [] []) [.write .ctrl 1]) = .next t := by
  refine ⟨.inl rfl, ?_, _, rfl⟩
  rintro ⟨v, rest, e, hv⟩
  obtain ⟨rfl, -⟩ : (1 : Word) = v ∧ [] = rest := by simpa [withOps] using e
  exact absurd hv (by decide)

theorem test_witness_NoStepOutsideARun :
    State.reset.hostQueue = [] ∧ State.reset.phase = .idle ∧ (runState 1 1 .rgb .done 0 4 [] [] []).phase = .done ∧
    (runState 1 1 .rgb .fault 0 4 [] [] []).phase = .fault := by decide

theorem test_witness_FaultCodeIsWrittenByFaultEntryAlone :
    observe (fun t => t.faultCode) (step (reconAt 5)) = some 2 ∧ (reconAt 5).faultCode = 0 ∧
    observe (fun t => t.faultCode)
      (step (withOps { runState 1 1 .rgb .fault 0 0 [] [] [] with faultCode := 1 } [.write .ctrl 2])) = some 0 := by
  decide

/-- Every bit but the two command bits set; all of CTRL 0. -/
theorem test_witness_ControlWriteWithoutCommandChangesNothing :
    (withOps (reconAt 4) [.write .ctrl 0xFFFFFFFC]).hostQueue = [.write .ctrl 0xFFFFFFFC] ∧
    BitVec.getLsbD (0xFFFFFFFC : Word) 1 = false ∧ BitVec.getLsbD (0xFFFFFFFC : Word) 0 = false ∧
    BitVec.getLsbD (0 : Word) 1 = false ∧ BitVec.getLsbD (0 : Word) 0 = false := by decide

/-- Busy with a next state, busy with no rule enabled (POS_Y above `H`), and not busy. -/
theorem test_witness_WaitingLetsTheSequencerMove :
    (withOps (reconAt 5) [.wait, .wait]).hostQueue = [.wait, .wait] ∧ (withOps (reconAt 5) [.wait, .wait]).busy = true ∧
    (∃ t, step (withOps (reconAt 5) []) = .next t) ∧
    (withOps (loadAt 3 []) [.wait]).busy = true ∧
    step (withOps (loadAt 3 []) []) = .fault .noRuleEnabled ∧ (withOps State.reset [.wait]).busy = false :=
  ⟨rfl, by decide, ⟨_, rfl⟩, by decide, rfl, by decide⟩

/-! ### Witnesses: states that meet the invariant -/

theorem recon_inv : Inv (reconAt 4) :=
  ⟨by decide, by decide, by decide, by decide, rfl, ⟨by decide, by decide⟩,
    by decide, by decide, rfl, by decide, by decide, rfl, rfl, rfl, rfl, rfl⟩

theorem load_inv : Inv (loadAt 0 [0, 1, 2, 3, 4, 7, 8, 9]) :=
  ⟨by decide, by decide, by decide, by decide, rfl, ⟨by decide, by decide⟩,
    by decide, by decide, rfl, by decide, by decide, rfl, rfl, rfl, rfl, rfl⟩

theorem emit_inv : Inv (emitAt 0 2 0) :=
  ⟨by decide, by decide, by decide, by decide, rfl, ⟨by decide, by decide⟩,
    by decide, by decide, by decide, by decide, by decide, fun h => absurd h (by decide), .inl ⟨rfl, rfl, rfl⟩,
    rfl, rfl, rfl, rfl⟩

theorem test_witness_EveryStepKeepsTheInvariant : Inv (reconAt 4) ∧ ∃ t, step (reconAt 4) = .next t :=
  ⟨recon_inv, _, rfl⟩

theorem test_witness_PlacedTableWordMeetsTheInvariant : tableGeometry.legal State.reset.params = true := by decide

theorem test_witness_EveryRunStepMakesProgress :
    (Inv (loadAt 0 [0, 1, 2, 3, 4, 7, 8, 9]) ∧ (loadAt 0 [0, 1, 2, 3, 4, 7, 8, 9]).busy = true ∧
      (loadAt 0 [0, 1, 2, 3, 4, 7, 8, 9]).hostQueue = []) ∧
    (Inv (reconAt 4) ∧ (reconAt 4).busy = true ∧ (reconAt 4).hostQueue = []) ∧
    Inv (emitAt 0 2 0) ∧ (emitAt 0 2 0).busy = true ∧ (emitAt 0 2 0).hostQueue = [] :=
  ⟨⟨load_inv, by decide, rfl⟩, ⟨recon_inv, by decide, rfl⟩, emit_inv, by decide, rfl⟩

/-- RECON at row 1, row 0 reconstructed and row 1 still encoded. -/
theorem recon_follows : FollowsReference (reconAt 4) := by
  refine ⟨?_, ?_, ?_, ?_⟩
  · show ∀ y, y < 2 → _
    decide
  · show ∀ y, y < 1 → _
    decide
  · intro y x k hy hx hk
    have h : ∀ y, y < 1 → ∀ x, x < 1 → ∀ k, k < 3 → (reconAt 4).rasterByte y x k = (reconAt 4).refByte y x k := by
      decide
    exact h y hy x hx k hk
  · intro y x k hy hy' hx hk
    have h : ∀ y, y < 2 → 1 ≤ y → ∀ x, x < 1 → ∀ k, k < 3 → (reconAt 4).rasterByte y x k =
        encodedByte (reconAt 4).geometry (reconAt 4).inputBytes y x k := by decide
    exact h y hy' hy x hx k hk

theorem test_witness_EveryRunStepFollowsTheReference :
    Inv (reconAt 4) ∧ FollowsReference (reconAt 4) ∧ (reconAt 4).busy = true ∧ ∃ t, step (reconAt 4) = .next t :=
  ⟨recon_inv, recon_follows, by decide, _, rfl⟩

/-- IDLE with a 1 by 2 RGB image configured and IN placed, START pending. -/
def startPending (inp : List Byte) : State := withOps (runState 1 2 .rgb .idle 0 0 inp [] []) [.write .ctrl 1]

theorem startPending_inv (inp : List Byte) : Inv (startPending inp) :=
  ⟨Memory.writeAll_wf .nil _ _, .nil, .nil, .nil, rfl, ⟨fun c h => (by cases h), fun c h => (by cases h)⟩,
    rfl, rfl, rfl, rfl, rfl, rfl, rfl, rfl, rfl, rfl⟩

/-- The three ends of a run: one byte short; filter types 5 and 9 (F6: the lower row counts); all legal. -/
theorem test_witness_EveryRunEndsAsTheReferenceSays :
    (∀ inp, Inv (startPending inp)) ∧ (startPending []).phase = .idle ∧ (startPending []).legal = true ∧
    (startPending []).hostQueue = [.write .ctrl 1] ∧
    (startPending [0, 1, 2, 3, 4, 5, 6]).inLen.toNat < (startPending []).geometry.expectedLen ∧
    (startPending []).geometry.expectedLen ≤ (startPending [5, 1, 2, 3, 9, 5, 6, 7]).inLen.toNat ∧
    FiltersLegal (startPending [5, 1, 2, 3, 9, 5, 6, 7]) 0 ∧
    4 < (filterByte (startPending []).geometry (startPending [5, 1, 2, 3, 9, 5, 6, 7]).inputBytes 0).toNat ∧
    FiltersLegal (startPending [0, 1, 2, 3, 4, 5, 6, 7]) 2 := by
  refine ⟨startPending_inv, rfl, by decide, rfl, by decide, by decide, fun y h => absurd h (Nat.not_lt_zero y), by decide, ?_⟩
  unfold FiltersLegal
  decide

/-- LOAD of one RGBA pixel, two inputs that differ in its alpha byte, at IN address 4. -/
def alphaRun : State := runState 1 1 .rgba .load 0 0 [0, 1, 2, 3, 4] [] []

theorem test_witness_AlphaNeverReachesTheOutput :
    ∃ t, SameButAlpha alphaRun t ∧ t.input ≠ alphaRun.input ∧ Inv alphaRun ∧ alphaRun.busy = true ∧
      alphaRun.hostQueue = [] := by
  refine ⟨{ alphaRun with input := alphaRun.input.write 4 9 }, ?_, by decide, ?_, by decide, rfl⟩
  · refine ⟨rfl, rfl, rfl, rfl, rfl, rfl, rfl, rfl, rfl, rfl, rfl, rfl, rfl, rfl, rfl,
      fun a ha => ?_, fun _ _ => rfl, fun _ _ _ _ _ _ => rfl, rfl, rfl⟩
    refine readByte_congr (Memory.read?_write_ne _ ?_ _) rfl
    rintro rfl
    exact ha ⟨0, 0, by decide, by decide⟩
  · exact ⟨by decide, by decide, by decide, by decide, rfl, ⟨by decide, by decide⟩,
      by decide, by decide, rfl, by decide, by decide, rfl, rfl, rfl, rfl, rfl⟩

end Sys2Proof.Tests
end

section
/-! Proofs of the statements on the scope of the model (spec 00_scope.md): parameters, host operations, START, the
placed table word, and the little-endian bytes of R14. -/

namespace Sys2Proof

/-! ### Little-endian bytes -/

/-- Settles O25: each byte is a digit of the number to the base 256. -/
theorem le32IsLittleEndian : Obligations.Le32IsLittleEndian := by
  intro v hv
  refine ⟨_, _, _, _, rfl, ?_⟩
  simp only [BitVec.toNat_ofNat]
  omega

namespace Machine

/-! ### The parameters (R9, R47) -/

/-- No operation of the host changes a parameter. -/
theorem HostRule.params {s t : State} {op : HostOp} (h : HostRule s op t) : t.params = s.params := by
  cases h with
  | configured _ _ h =>
    obtain ⟨-, _, _, _, _, rfl⟩ := h
    rfl
  | waited _ _ h => exact h.keeps.params
  | ignored | reset | started | placed => rfl

/-- Settles O34, by the rules of the sequencer and the operations of the host. -/
theorem parametersNeverChange : Obligations.ParametersNeverChange := by
  intro s t h
  rcases step_cases h with ⟨-, h⟩ | ⟨op, rest, -, h⟩
  · exact h.keeps.params
  · exact h.params

/-! ### The sequencer and the host's queue (log 7) -/

/-- An outcome with the host's queue of its next state replaced. -/
def outcomeWithQueue (q : List HostOp) : Host.Outcome State Fault Refusal → Host.Outcome State Fault Refusal
  | .next t => .next { t with hostQueue := q }
  | .fault r => .fault r
  | .refused r => .refused r

/-- A branch of a rule commutes with the replaced queue when both of its outcomes do. -/
theorem outcomeWithQueue_ite (q : List HostOp) (c : Prop) [Decidable c]
    (a b : Host.Outcome State Fault Refusal) :
    outcomeWithQueue q (if c then a else b) = if c then outcomeWithQueue q a else outcomeWithQueue q b := by
  split <;> rfl

theorem raise_withQueue (e : Exn) (s : State) (q : List HostOp) :
    raise e { s with hostQueue := q } = { raise e s with hostQueue := q } := by
  cases e <;> rfl

theorem loadRecord_withQueue (s : State) (q : List HostOp) :
    loadRecord { s with hostQueue := q } = { loadRecord s with hostQueue := q } := by
  by_cases h : s.inPos.toNat + s.geometry.recLen > s.inLen.toNat
  · rw [loadRecord_truncated h, ← raise_withQueue]
    exact loadRecord_truncated (s := { s with hostQueue := q }) h
  · have hl := loadPixels_withQueue s.posY.toNat s.inPos.toNat s.geometry.width 0
      (s.writeFt s.posY.toNat (s.readByte .input s.inPos.toNat)) q
    obtain ⟨ras, hr, e⟩ := loadRecord_eq h
    obtain ⟨ras', hr', e'⟩ := loadRecord_eq (s := { s with hostQueue := q }) h
    have hras : ras' = ras :=
      (congrArg State.raster hr').symm.trans ((congrArg State.raster hl).trans (congrArg State.raster hr))
    rw [e, e', hras]
    rfl

theorem reconRow_withQueue (f : Pixel → Pixel → Pixel → Pixel → Pixel) (pix : List Pixel) (s : State)
    (q : List HostOp) : reconRow f pix { s with hostQueue := q } = { reconRow f pix s with hostQueue := q } := by
  simp only [reconRow, reconFrom_withQueue]

theorem loadStep_withQueue (s : State) (q : List HostOp) :
    loadStep { s with hostQueue := q } = outcomeWithQueue q (loadStep s) := by
  simp only [loadStep, outcomeWithQueue_ite, loadRecord_withQueue]
  rfl

theorem reconRecord_withQueue (s : State) (q : List HostOp) :
    reconRecord { s with hostQueue := q } = outcomeWithQueue q (reconRecord s) := by
  cases hd : decodeRecord (s.readByte .ft s.posY.toNat) (s.readRow s.posY.toNat) with
  | none =>
    have h := decodeRecord_eq_none.1 hd
    rw [reconRecord_of_none h, reconRecord_of_none (s := { s with hostQueue := q }) h, raise_withQueue]
    rfl
  | some i =>
    obtain ⟨ho, hi⟩ := decodeRecord_eq_some.1 hd
    rw [reconRecord_of_some ho hi, reconRecord_of_some (s := { s with hostQueue := q }) ho hi,
      exec_eq_reconRow, exec_eq_reconRow, reconRow_withQueue]
    rfl

theorem reconStep_withQueue (s : State) (q : List HostOp) :
    reconStep { s with hostQueue := q } = outcomeWithQueue q (reconStep s) := by
  simp only [reconStep, outcomeWithQueue_ite, reconRecord_withQueue]
  rfl

theorem emitStep_withQueue (s : State) (q : List HostOp) :
    emitStep { s with hostQueue := q } = outcomeWithQueue q (emitStep s) := by
  simp only [emitStep, outcomeWithQueue_ite]
  rfl

theorem sequencerStep_of_load {s : State} (hp : s.phase = .load) : sequencerStep s = loadStep s := by
  rw [sequencerStep, hp]

theorem sequencerStep_of_recon {s : State} (hp : s.phase = .recon) : sequencerStep s = reconStep s := by
  rw [sequencerStep, hp]

theorem sequencerStep_of_emit {s : State} (hp : s.phase = .emit) : sequencerStep s = emitStep s := by
  rw [sequencerStep, hp]

/-- The sequencer neither reads nor writes the host's queue. -/
theorem sequencerStep_withQueue (s : State) (q : List HostOp) :
    sequencerStep { s with hostQueue := q } = outcomeWithQueue q (sequencerStep s) := by
  obtain ⟨p, hp⟩ : ∃ p, s.phase = p := ⟨_, rfl⟩
  have hp' : ({ s with hostQueue := q } : State).phase = p := hp
  cases p with
  | idle | done | fault => simp [sequencerStep, hp, outcomeWithQueue]
  | load => rw [sequencerStep_of_load hp, sequencerStep_of_load hp', loadStep_withQueue]
  | recon => rw [sequencerStep_of_recon hp, sequencerStep_of_recon hp', reconStep_withQueue]
  | emit => rw [sequencerStep_of_emit hp, sequencerStep_of_emit hp', emitStep_withQueue]

/-- A step with a wait of the host pending (R11; log 7). -/
theorem step_of_wait {s : State} {rest : List HostOp} (h : s.hostQueue = .wait :: rest) :
    step s = if s.busy then sequencerStep { s with hostQueue := rest } else .next { s with hostQueue := rest } :=
  step_of_cons h

/-- Settles O54: the sequencer's step does not depend on the queue. -/
theorem waitingLetsTheSequencerMove : Obligations.WaitingLetsTheSequencerMove := by
  intro s rest hq
  have hstep := step_of_wait hq
  refine ⟨fun hb => ?_, fun hb => by rw [hstep, hb]; rfl⟩
  rw [hb, if_pos rfl] at hstep
  have hqueue : step s = outcomeWithQueue rest (step { s with hostQueue := [] }) := by
    rw [hstep, step_of_nil rfl]
    exact sequencerStep_withQueue { s with hostQueue := [] } rest
  exact ⟨hstep, fun t ht => by rw [hqueue, ht]; rfl, fun r hr => by rw [hqueue, hr]; rfl⟩

/-! ### START (R188, R10) -/

/-- A step with START pending and no RESET (R35). -/
theorem step_of_start {s : State} {v : Word} {rest : List HostOp} (hq : s.hostQueue = .write .ctrl v :: rest)
    (h1 : v.getLsbD 1 = false) (h0 : v.getLsbD 0 = true) : step s = startBlock { s with hostQueue := rest } := by
  rw [step_of_cons hq]
  simp only [hostStep, writeReg, writeCtrl, h1, h0, Bool.false_eq_true, if_true, if_false]

/-- At the start of LOAD no row is loaded yet, so the reference asks nothing (R95). -/
theorem followsReference_of_load_start {s : State} (hp : s.phase = .load) (hy : s.posY = 0) :
    FollowsReference s := by
  simp [FollowsReference, hp, hy, FiltersLoaded, RowsEncoded]

/-- Settles O37, by the cases of START. -/
theorem startIsAcceptedInIdleOnly : Obligations.StartIsAcceptedInIdleOnly := by
  intro s v rest hq h1 h0
  rw [step_of_start hq h1 h0]
  refine ⟨fun hp hl => ⟨_, ?_, rfl, followsReference_of_load_start rfl rfl⟩, fun hp hl => ?_, fun hp => ?_⟩
  · rw [startBlock, if_pos hp]
    exact if_pos hl
  · rw [startBlock, if_pos hp]
    exact if_neg (show ¬ s.legal = true by simp [hl])
  · exact if_neg hp

/-! ### The placed table word (log 12) -/

theorem tableBytes_length (nbits w : Nat) : (tableBytes nbits w).length = tableGeometry.recLen := by
  simp [tableBytes]

theorem withFetchWord_geometry (s : State) (nbits w : Nat) : (s.withFetchWord nbits w).geometry = tableGeometry :=
  rfl

/-- Bytes written into an empty space from address 0 on lie below any size that holds them. -/
theorem Memory.lt_of_mem_writeAll_empty {bs : List Byte} {n : Nat} (hn : bs.length ≤ n) :
    ∀ c ∈ (Memory.empty.writeAll 0 bs).cells, c.1 < n := by
  intro c hc
  rcases Memory.mem_writeAll hc with ⟨-, h⟩ | h
  · omega
  · cases h

/-- The one opcode and the one pixel of the record fit FT and RASTER (R50, R63). -/
theorem withFetchWord_inBounds (s : State) (nbits w : Nat) : InBounds (s.withFetchWord nbits w) := by
  refine ⟨Memory.lt_of_mem_writeAll_empty ?_, Memory.lt_of_mem_writeAll_empty ?_⟩
  · rw [List.length_take]
    exact Nat.min_le_left _ _
  · rw [List.length_drop, tableBytes_length, withFetchWord_geometry]
    decide

theorem withFetchWord_position {s : State} (hl : tableGeometry.legal s.params = true) (nbits w : Nat) :
    PositionOk (s.withFetchWord nbits w) :=
  ⟨hl, Nat.zero_le _, rfl, rfl, Nat.le_refl _, rfl, rfl, rfl, rfl, rfl⟩

/-- Settles O48: one clause of the invariant at a time. -/
theorem placedTableWordMeetsTheInvariant : Obligations.PlacedTableWordMeetsTheInvariant := by
  intro s nbits w hl
  exact
    { inputWf := Memory.writeAll_wf Memory.wf_empty _ _
      ftWf := Memory.writeAll_wf Memory.wf_empty _ _
      rasterWf := Memory.writeAll_wf Memory.wf_empty _ _
      outWf := Memory.wf_empty
      outFilled := rfl
      inBounds := withFetchWord_inBounds s nbits w
      position := withFetchWord_position hl nbits w }

end Machine

end Sys2Proof
end

section
/-! Proofs of the statements on the state (spec 10_state.md): the invariant, the frame of the row step, the operand
registers, reset, the configuration, the register map and the fault code. -/

namespace Sys2Proof.Machine

/-! ### What a rule of the sequencer does to each space (R55) -/

/-- FT is left alone but for the entry of a row inside it. -/
theorem SequencerRule.ft_eq {s t : State} (h : SequencerRule s t) :
    t.ft = s.ft ∨ ∃ b, s.posY.toNat < s.geometry.height ∧ t.ft = s.ft.write s.posY.toNat b := by
  have k := h.keeps
  cases h with
  | fetch hp hy h =>
    obtain ⟨ras, -, e⟩ := loadRecord_eq h
    exact .inr ⟨_, hy, by rw [e]; rfl⟩
  | truncated | loadEnd => exact .inl rfl
  | execute hp | badFilter hp | reconEnd hp | emitHeader hp | emitEnd hp | emitPixel hp | emitPad hp =>
    exact .inl (k.ft (by simp [hp]))

theorem SequencerRule.raster_wf {s t : State} (h : SequencerRule s t) (hw : s.raster.wf) : t.raster.wf := by
  cases h with
  | fetch hp hy h => exact loadRecord_raster_wf h hw
  | execute => exact reconRow_wf hw
  | truncated | loadEnd | badFilter | reconEnd | emitHeader | emitEnd | emitPixel | emitPad => exact hw

/-- An address of RASTER that a rule lists anew lies inside RASTER (R63). -/
theorem SequencerRule.mem_raster {s t : State} (h : SequencerRule s t) {c : Host.Cell} (hc : c ∈ t.raster.cells) :
    c.1 < s.geometry.height * s.geometry.width * s.geometry.bpp ∨ c ∈ s.raster.cells := by
  cases h with
  | fetch hp hy h => exact (mem_loadRecord h hc).imp_left fun hr => hr.lt hy le_rfl
  | execute hp hy i ho hi =>
    have hn : i.pixels.length = s.geometry.width := by rw [hi, readRow_length]
    exact (mem_reconRow (keepsLength_pixelOp _ i) hc).imp_left fun hr => hr.lt hy hn.le
  | truncated | loadEnd | badFilter | reconEnd | emitHeader | emitEnd | emitPixel | emitPad => exact .inr hc

/-- OUT grows at its end, by no byte outside EMIT (R54). -/
theorem SequencerRule.out_eq {s t : State} (h : SequencerRule s t) :
    ∃ bs, t.out = s.out.writeAll s.outLen bs ∧ t.outLen = s.outLen + bs.length := by
  have k := h.keeps
  cases h with
  | emitHeader | emitPixel | emitPad => exact ⟨_, rfl, rfl⟩
  | emitEnd => exact ⟨[], rfl, rfl⟩
  | fetch hp | truncated hp | loadEnd hp | execute hp | badFilter hp | reconEnd hp =>
    have hne : s.phase ≠ .emit := by simp [hp]
    exact ⟨[], k.out hne, k.outLen hne⟩

theorem SequencerRule.inBounds {s t : State} (h : SequencerRule s t) (hb : InBounds s) : InBounds t := by
  obtain ⟨hft, hras⟩ := hb
  rw [InBounds, h.keeps.geometry]
  refine ⟨fun c hc => ?_, fun c hc => (h.mem_raster hc).elim id (hras c)⟩
  rcases h.ft_eq with e | ⟨b, hy, e⟩ <;> rw [e] at hc
  · exact hft c hc
  · rcases Memory.mem_write hc with hc | hc
    · exact hc ▸ hy
    · exact hft c hc

/-! ### The position and the counters, rule by rule (R23 to R27) -/

/-- IN_POS does not wrap where IN holds the whole record (R96). -/
theorem inPos_add_recLen {s : State} (h : ¬ s.inPos.toNat + s.geometry.recLen > s.inLen.toNat) :
    (s.inPos + BitVec.ofNat 32 s.geometry.recLen).toNat = s.inPos.toNat + s.geometry.recLen := by
  have := s.inLen.isLt
  rw [BitVec.toNat_add, BitVec.toNat_ofNat]
  omega

theorem positionOk_loadRecord {s : State} (hp : s.phase = .load) (hy : s.posY.toNat < s.geometry.height)
    (h : ¬ s.inPos.toNat + s.geometry.recLen > s.inLen.toNat) (hpos : PositionOk s) :
    PositionOk (loadRecord s) := by
  obtain ⟨ras, -, e⟩ := loadRecord_eq h
  simp only [PositionOk, hp] at hpos
  obtain ⟨hl, -, hx, hin, -, ho, hf⟩ := hpos
  have hin' := inPos_add_recLen h
  have hy' := posY_succ hy
  rw [e]
  simp only [PositionOk, writeFt_phase, hp]
  refine ⟨hl, ?_, hx, ?_, ?_, ho, hf⟩
  · exact hy'.trans_le hy
  · show _ = (s.posY + 1).toNat * s.geometry.recLen
    rw [hin', hy', hin, Nat.add_mul, Nat.one_mul]
  · exact hin'.trans_le (not_lt.1 h)

/-- The record that IN does not hold whole ends within `EXPECTED_LEN`, so IN is shorter (R97). -/
theorem truncationRecorded_raise {s : State} (hl : s.legal = true) (hy : s.posY.toNat < s.geometry.height)
    (hin : s.inPos.toNat = s.posY.toNat * s.geometry.recLen)
    (h : s.inPos.toNat + s.geometry.recLen > s.inLen.toNat) :
    TruncationRecorded (raise .truncatedInput s) := by
  have hexp : (raise .truncatedInput s).faultExpected.toNat = s.geometry.expectedLen :=
    Nat.mod_eq_of_lt (Geometry.legal_expectedLen hl)
  have hrec := Geometry.rec_le_expectedLen hy
  refine ⟨rfl, rfl, hexp, rfl, ?_⟩
  rw [hexp]
  show s.inLen.toNat < _
  omega

theorem positionOk_reconRow {s : State} (f : Pixel → Pixel → Pixel → Pixel → Pixel) (pix : List Pixel)
    (hp : s.phase = .recon) (hy : s.posY.toNat < s.geometry.height) (hpos : PositionOk s) :
    PositionOk (reconRow f pix s) := by
  obtain ⟨_, _, _, _, _, e⟩ := reconRow_frame f pix s
  simp only [PositionOk, hp] at hpos
  obtain ⟨hl, -, -, hin, hle, ho, hf⟩ := hpos
  rw [e]
  simp only [PositionOk, hp]
  exact ⟨hl, (posY_succ hy).trans_le hy, trivial, hin, hle, ho, hf⟩

theorem positionOk_emitHeader {s : State} (hp : s.phase = .emit) (h : s.outLen = 0) (hpos : PositionOk s) :
    PositionOk (emitHeader s) := by
  simp only [PositionOk, hp] at hpos
  obtain ⟨hl, hy, hx, hin, hle, hxy, ho, hf⟩ := hpos
  simp only [PositionOk, emitHeader_phase, hp]
  refine ⟨hl, hy, hx, hin, hle, hxy, .inr ?_, hf⟩
  obtain ⟨-, hyH, hx0⟩ : s.outLen = 0 ∧ s.posY = s.cfgHeight ∧ s.posX = 0 := ho.resolve_right (by omega)
  show s.outLen + 54 = 54 + (s.geometry.height - s.posY.toNat) * _ + 3 * s.posX.toNat
  rw [h, hyH, hx0, geometry_height, Nat.sub_self, Nat.zero_mul]
  rfl

/-- The count of EMIT once the header is out: the rows below POS_Y, and three bytes for each pixel of
the row under way (R149). -/
theorem outLen_of_emit {s : State} (hp : s.phase = .emit) (h : 54 ≤ s.outLen) (hpos : PositionOk s) :
    s.outLen = 54 + (s.geometry.height - s.posY.toNat) *
      (s.geometry.outRowBytes + s.geometry.pad s.params.padRule) + 3 * s.posX.toNat := by
  simp only [PositionOk, hp] at hpos
  obtain ⟨-, -, -, -, -, -, ho, -⟩ := hpos
  exact ho.resolve_left (by omega)

theorem positionOk_emitEnd {s : State} (hp : s.phase = .emit) (h : 54 ≤ s.outLen) (hy : s.posY.toNat = 0)
    (hpos : PositionOk s) : PositionOk (emitEnd s) := by
  have ho := outLen_of_emit hp h hpos
  simp only [PositionOk, hp] at hpos
  obtain ⟨hl, -, -, hin, hle, hxy, -, hf⟩ := hpos
  refine ⟨hl, rfl, rfl, hin, hle, ?_, hf⟩
  rw [hy, hxy (BitVec.eq_of_toNat_eq hy)] at ho
  exact ho

theorem positionOk_emitPixel {s : State} (hp : s.phase = .emit) (h : 54 ≤ s.outLen) (hy : 0 < s.posY.toNat)
    (hx : s.posX.toNat < s.geometry.width) (hpos : PositionOk s) : PositionOk (emitPixel s) := by
  have ho := outLen_of_emit hp h hpos
  have hx' := posX_succ hx
  simp only [PositionOk, hp] at hpos
  obtain ⟨hl, hyH, -, hin, hle, -, -, hf⟩ := hpos
  simp only [PositionOk, emitPixel_phase, hp]
  refine ⟨hl, hyH, hx'.trans_le hx, hin, hle, fun h0 => ?_, .inr ?_, hf⟩
  · rw [emitPixel_posY] at h0
    rw [h0] at hy
    exact absurd hy (lt_irrefl 0)
  · show s.outLen + 3 = 54 + (s.geometry.height - s.posY.toNat) * _ + 3 * (s.posX + 1).toNat
    rw [hx', ho]
    rfl

theorem emitPad_outLen (s : State) : (emitPad s).outLen = s.outLen + s.geometry.pad s.params.padRule := by
  show s.outLen + (List.replicate _ _).length = _
  rw [List.length_replicate]

theorem positionOk_emitPad {s : State} (hp : s.phase = .emit) (h : 54 ≤ s.outLen) (hy : 0 < s.posY.toNat)
    (hx : s.posX.toNat = s.geometry.width) (hpos : PositionOk s) : PositionOk (emitPad s) := by
  have ho := outLen_of_emit hp h hpos
  have hy' := posY_pred hy
  simp only [PositionOk, hp] at hpos
  obtain ⟨hl, hyH, -, hin, hle, -, -, hf⟩ := hpos
  simp only [PositionOk, emitPad_phase, hp]
  refine ⟨hl, ?_, Nat.zero_le _, hin, hle, fun _ => rfl, .inr ?_, hf⟩
  · rw [emitPad_posY, hy', emitPad_geometry]
    omega
  · have hrows : s.geometry.height - (s.posY.toNat - 1) = s.geometry.height - s.posY.toNat + 1 := by omega
    rw [emitPad_outLen, emitPad_posY, emitPad_posX, emitPad_geometry, emitPad_params, hy', hrows, ho, hx,
      Nat.add_mul, Nat.one_mul, Geometry.outRowBytes_eq]
    show _ = _ + 3 * 0
    omega

theorem SequencerRule.positionOk {s t : State} (h : SequencerRule s t) (hpos : PositionOk s) : PositionOk t := by
  cases h with
  | fetch hp hy h => exact positionOk_loadRecord hp hy h hpos
  | truncated hp hy h =>
    simp only [PositionOk, hp] at hpos
    obtain ⟨hl, -, hx, hin, hle, ho, -⟩ := hpos
    exact ⟨hl, hy, hx, hle, ho, .inl (truncationRecorded_raise hl hy hin h)⟩
  | loadEnd hp hy =>
    simp only [PositionOk, hp] at hpos
    obtain ⟨hl, -, -, hin, hle, ho, hf⟩ := hpos
    rw [hy] at hin
    exact ⟨hl, Nat.zero_le _, rfl, hin, hle, ho, hf⟩
  | execute hp hy i => exact positionOk_reconRow _ _ hp hy hpos
  | badFilter hp hy h =>
    simp only [PositionOk, hp] at hpos
    obtain ⟨hl, -, hx, hin, hle, ho, -⟩ := hpos
    exact ⟨hl, hy, hx, hle, ho, .inr ⟨rfl, h, rfl, rfl, hin⟩⟩
  | reconEnd hp hy =>
    simp only [PositionOk, hp] at hpos
    obtain ⟨hl, -, -, hin, hle, ho, hf⟩ := hpos
    exact ⟨hl, le_rfl, Nat.zero_le _, hin, hle, fun _ => rfl, .inl ⟨ho, rfl, rfl⟩, hf⟩
  | emitHeader hp h => exact positionOk_emitHeader hp h hpos
  | emitEnd hp h hy => exact positionOk_emitEnd hp h hy hpos
  | emitPixel hp h hy hx => exact positionOk_emitPixel hp h hy hx hpos
  | emitPad hp h hy hx => exact positionOk_emitPad hp h hy hx hpos

/-! ### The invariant -/

/-- Every rule of the sequencer keeps the invariant. -/
theorem SequencerRule.inv {s t : State} (h : SequencerRule s t) (hi : Inv s) : Inv t := by
  obtain ⟨bs, hout, hlen⟩ := h.out_eq
  exact
    { inputWf := by rw [h.keeps.input]; exact hi.inputWf
      ftWf := by
        rcases h.ft_eq with e | ⟨b, -, e⟩ <;> rw [e]
        · exact hi.ftWf
        · exact Memory.write_wf hi.ftWf _ _
      rasterWf := h.raster_wf hi.rasterWf
      outWf := by rw [hout]; exact Memory.writeAll_wf hi.outWf _ _
      outFilled := by rw [OutFilled, hout, hlen]; exact map_fst_writeAll bs hi.outFilled
      inBounds := h.inBounds hi.inBounds
      position := h.positionOk hi.position }

theorem inBounds_of_empty {s : State} (hf : s.ft.cells = []) (hr : s.raster.cells = []) : InBounds s := by
  simp [InBounds, hf, hr]

/-- Settles O46: every space is empty and every counter 0. -/
theorem invariantHoldsAtReset : Obligations.InvariantHoldsAtReset :=
  { inputWf := Memory.wf_empty
    ftWf := Memory.wf_empty
    rasterWf := Memory.wf_empty
    outWf := Memory.wf_empty
    outFilled := rfl
    inBounds := inBounds_of_empty rfl rfl
    position := ⟨rfl, rfl, rfl, rfl, rfl, rfl, rfl, rfl, rfl, rfl⟩ }

/-- RESET leaves the state after reset but for the parameters, the operand registers, the epoch and the
queue, of which the invariant says nothing (R48). -/
theorem inv_resetBlock (s : State) : Inv (resetBlock s) :=
  have h := invariantHoldsAtReset
  ⟨h.inputWf, h.ftWf, h.rasterWf, h.outWf, h.outFilled, h.inBounds, h.position⟩

/-- In IDLE the invariant does not speak of the configuration: FT and RASTER list nothing. -/
theorem ConfigWritten.inv {s t : State} (h : ConfigWritten s t) (hi : Inv s) : Inv t := by
  obtain ⟨hp, _, _, _, _, rfl⟩ := h
  have hpos := hi.position
  simp only [PositionOk, hp] at hpos
  obtain ⟨hy, hx, hin, ho, hft, hras, hf⟩ := hpos
  refine ⟨hi.inputWf, hi.ftWf, hi.rasterWf, hi.outWf, hi.outFilled, inBounds_of_empty hft hras, ?_⟩
  simp only [PositionOk, hp]
  exact ⟨hy, hx, hin, ho, hft, hras, hf⟩

/-- START leads from IDLE to row 0 of LOAD (R95). -/
theorem inv_started {s : State} (hp : s.phase = .idle) (hl : s.legal = true) (hi : Inv s) :
    Inv { s with phase := .load, posY := 0, posX := 0, inPos := 0, outLen := 0, out := Memory.empty } := by
  have hpos := hi.position
  simp only [PositionOk, hp] at hpos
  obtain ⟨-, -, -, -, hft, hras, hf⟩ := hpos
  exact ⟨hi.inputWf, hi.ftWf, hi.rasterWf, Memory.wf_empty, rfl, inBounds_of_empty hft hras, hl, Nat.zero_le _, rfl,
    (Nat.zero_mul _).symm, Nat.zero_le _, rfl, hf⟩

/-- Every operation of the host keeps the invariant. -/
theorem HostRule.inv {s t : State} {op : HostOp} (h : HostRule s op t) (hi : Inv s) : Inv t := by
  cases h with
  | ignored => exact hi
  | configured _ _ h => exact h.inv hi
  | reset => exact inv_resetBlock s
  | started _ hp hl => exact inv_started hp hl hi
  | placed bytes =>
    exact ⟨Memory.writeAll_wf hi.inputWf _ _, hi.ftWf, hi.rasterWf, hi.outWf, hi.outFilled, hi.inBounds,
      hi.position⟩
  | waited _ _ h => exact h.inv hi

/-- Settles O47, by the rules of the sequencer and the operations of the host. -/
theorem everyStepKeepsTheInvariant : Obligations.EveryStepKeepsTheInvariant := by
  intro s t hi h
  rcases step_cases h with ⟨-, h⟩ | ⟨op, rest, -, h⟩
  · exact h.inv hi
  · exact h.inv (hi.withQueue rest)

/-! ### The operand registers and the frame of the row step (R21, R106, R107) -/

/-- Lane 3 of X, A, B and C is the same in two states. -/
def SameLane3 (s t : State) : Prop :=
  t.regX.lane3 = s.regX.lane3 ∧ t.regA.lane3 = s.regA.lane3 ∧ t.regB.lane3 = s.regB.lane3 ∧
    t.regC.lane3 = s.regC.lane3

theorem SameLane3.trans {s t u : State} (h : SameLane3 s t) (h' : SameLane3 t u) : SameLane3 s u := by
  obtain ⟨hx, ha, hb, hc⟩ := h
  obtain ⟨hx', ha', hb', hc'⟩ := h'
  exact ⟨hx'.trans hx, ha'.trans ha, hb'.trans hb, hc'.trans hc⟩

theorem bpp_of_rgb {s : State} (h : s.cfgColor = .rgb) : s.geometry.bpp = 3 := by
  rw [Geometry.bpp, geometry_color, h]
  rfl

/-- Loading pixels of three channels writes no lane 3 (log 15). -/
theorem loadOperands_sameLane3 {s : State} {enc : Pixel} (hb : s.geometry.bpp = 3)
    (he : enc.length = s.geometry.bpp) (x : Nat) : SameLane3 s (loadOperands s x enc) :=
  ⟨load_lane3 (he.trans hb) _, load_lane3 ((leftPixel_length ..).trans hb) _,
    load_lane3 ((upPixel_length ..).trans hb) _, load_lane3 ((upLeftPixel_length ..).trans hb) _⟩

theorem reconFrom_sameLane3 (f : Pixel → Pixel → Pixel → Pixel → Pixel) {pix : List Pixel} {s : State}
    (hb : s.geometry.bpp = 3) (hp : ∀ p ∈ pix, p.length = s.geometry.bpp) (x : Nat) :
    SameLane3 s (reconFrom f x pix s) := by
  induction pix generalizing x s with
  | nil => exact ⟨rfl, rfl, rfl, rfl⟩
  | cons p ps ih =>
    have hpixel : SameLane3 s (reconPixel f x p s) := loadOperands_sameLane3 hb (hp p List.mem_cons_self) x
    exact hpixel.trans (ih (s := reconPixel f x p s) hb (fun q hq => hp q (List.mem_cons_of_mem _ hq)) (x + 1))

/-- Settles O12: every instruction is a row step, and the frame is the row step's. -/
theorem rowStepFrame : Obligations.RowStepFrame := by
  intro i s t h
  rw [exec_eq_reconRow] at h
  injection h with h
  subst h
  obtain ⟨_, _, _, _, _, e⟩ := reconRow_frame (pixelOp s.params.paethWiden i) i.pixels s
  refine ⟨by rw [e], fun a ha => ?_, fun hc hwf => ?_⟩
  · refine readByte_congr (read?_reconRow_outside (keepsLength_pixelOp _ i) ?_) (by rw [e])
    rintro ⟨x, k, hx, hk, rfl⟩
    exact ha x k hx hk (by rw [Nat.zero_add])
  · exact reconFrom_sameLane3 _ (bpp_of_rgb hc) (wellFormed_iff.1 hwf).2 0

/-- Settles O17: each register holds the pixel it is loaded with. -/
theorem operandRegistersHoldTheNeighbours : Obligations.OperandRegistersHoldTheNeighbours := by
  intro s x enc k he hk
  have hX : (loadOperands s x enc).regX.pixel s.geometry = enc := pixel_load he _
  have hA : (loadOperands s x enc).regA.pixel s.geometry = leftPixel s s.posY.toNat x :=
    pixel_load (leftPixel_length ..) _
  have hB : (loadOperands s x enc).regB.pixel s.geometry = upPixel s s.posY.toNat x :=
    pixel_load (upPixel_length ..) _
  have hC : (loadOperands s x enc).regC.pixel s.geometry = upLeftPixel s s.posY.toNat x :=
    pixel_load (upLeftPixel_length ..) _
  rw [hX, hA, hB, hC]
  exact ⟨rfl, lane_leftPixel hk, lane_upPixel hk, lane_upLeftPixel hk,
    fun hc => loadOperands_sameLane3 (bpp_of_rgb hc) he x, rfl⟩

/-! ### RESET (R48, R185) -/

/-- A step with RESET pending, START or not (R35). -/
theorem step_of_reset {s : State} {v : Word} {rest : List HostOp} (hq : s.hostQueue = .write .ctrl v :: rest)
    (h1 : v.getLsbD 1 = true) : step s = .next (resetBlock { s with hostQueue := rest }) := by
  rw [step_of_cons hq]
  exact if_pos h1

/-- Settles O35: the table of R48, entry by entry. -/
theorem resetStateIsTheTable : Obligations.ResetStateIsTheTable :=
  ⟨rfl, rfl, rfl, rfl, rfl, rfl, rfl, rfl, rfl, rfl, rfl, rfl, rfl, rfl, rfl, by decide⟩

/-- Settles O36: the step is RESET, whatever the phase and bit 0. -/
theorem resetIsAcceptedInEveryPhase : Obligations.ResetIsAcceptedInEveryPhase := by
  intro s v rest hq h1
  exact ⟨_, step_of_reset hq h1, rfl, rfl, rfl, rfl, rfl, rfl, rfl, rfl, rfl, rfl, rfl, rfl, rfl, rfl, rfl, rfl, rfl,
    rfl, rfl⟩

/-! ### The configuration and the read-only registers (R29, R30) -/

/-- A step with the write of a register pending. -/
theorem step_of_write {s : State} {r : Reg} {v : Word} {rest : List HostOp}
    (hq : s.hostQueue = .write r v :: rest) : step s = writeReg r v { s with hostQueue := rest } :=
  step_of_cons hq

/-- Settles O38, by the four registers in IDLE and outside it. -/
theorem configurationIsWrittenInIdleOnly : Obligations.ConfigurationIsWrittenInIdleOnly := by
  intro s v r rest hq
  rw [step_of_write hq]
  constructor
  · intro hp
    refine ⟨?_, ?_, ?_, ?_⟩ <;> rintro rfl <;> exact congrArg _ (if_pos hp)
  · intro hp hr
    rcases hr with rfl | rfl | rfl | rfl <;> exact congrArg _ (if_neg hp)

/-- Settles O40, register by register. -/
theorem readOnlyRegistersIgnoreWrites : Obligations.ReadOnlyRegistersIgnoreWrites := by
  intro s v r rest hq hw hh hc hn hctrl
  rw [step_of_write hq]
  cases r with
  | cfgWidth | cfgHeight | cfgColor | inLen | ctrl => contradiction
  | status | faultCode | faultValue | faultExpected | faultActual | posY | posX | inPos | outLen => rfl

/-- Settles O53: with both command bits 0 the write of CTRL is no command. -/
theorem controlWriteWithoutCommandChangesNothing : Obligations.ControlWriteWithoutCommandChangesNothing := by
  intro s v rest hq h1 h0
  rw [step_of_write hq]
  simp only [writeReg, writeCtrl, h1, h0, Bool.false_eq_true, if_false]

/-- Settles O39: outside IDLE, what is no RESET is a rule of the sequencer or touches the queue and IN alone. -/
theorem configurationIsFrozenDuringTheRun : Obligations.ConfigurationIsFrozenDuringTheRun := by
  intro s t hp hr h
  obtain ⟨rest, rfl | ⟨bytes, -, rfl⟩ | ⟨-, h⟩⟩ := step_cases_in_run hp hr h
  · exact ⟨rfl, rfl⟩
  · exact ⟨rfl, rfl⟩
  · exact ⟨h.keeps.geometry, h.keeps.inLen⟩

/-! ### Reading the registers (R29, R31 to R41) -/

/-- The STATUS word of a phase (R36). -/
def statusOf (p : Phase) : Word :=
  BitVec.ofNat 32 (phaseNumber p + 8 * (decide (p = .done)).toNat + 16 * (decide (p = .fault)).toNat +
    32 * (decide (p = .load ∨ p = .recon ∨ p = .emit)).toNat)

theorem readReg_status (s : State) : s.readReg .status = statusOf s.phase := rfl

/-- The fields of STATUS, phase by phase. -/
theorem statusOf_fields (p : Phase) :
    (statusOf p).toNat % 8 = phaseNumber p ∧ ((statusOf p).getLsbD 3 = true ↔ p = .done) ∧
      ((statusOf p).getLsbD 4 = true ↔ p = .fault) ∧
      ((statusOf p).getLsbD 5 = true ↔ p = .load ∨ p = .recon ∨ p = .emit) ∧ (statusOf p).toNat < 64 := by
  cases p <;> decide

theorem readReg_cfgColor_toNat (s : State) :
    (s.readReg .cfgColor).toNat = if s.cfgColor = .rgba then 1 else 0 := by
  show (colorBit s.cfgColor).toNat = _
  cases s.cfgColor <;> rfl

/-- Settles O41: STATUS by its fields, every other register as it stands. -/
theorem registerReadsShowTheState : Obligations.RegisterReadsShowTheState := by
  intro s
  rw [readReg_status]
  obtain ⟨hphase, hdone, hfault, hbusy, habove⟩ := statusOf_fields s.phase
  exact ⟨rfl, rfl, readReg_cfgColor_toNat s, rfl, rfl, hphase, hdone, hfault, hbusy, habove,
    BitVec.toNat_setWidth_of_le (by decide), BitVec.toNat_setWidth_of_le (by decide), rfl, rfl, rfl, rfl, rfl,
    BitVec.toNat_ofNat ..⟩

/-! ### FAULT_CODE (R37, R169) -/

/-- What an operation of the host does to FAULT_CODE: nothing, or it is RESET, or a wait that lets the
sequencer fault. -/
theorem HostRule.faultCode {s t : State} {op : HostOp} (h : HostRule s op t) :
    t.faultCode = s.faultCode ∨ (∃ v, op = .write .ctrl v ∧ v.getLsbD 1 = true ∧ t.faultCode = 0) ∨
      t.phase = .fault ∧ (t.faultCode = 1 ∨ t.faultCode = 2) := by
  cases h with
  | ignored | started | placed => exact .inl rfl
  | configured _ _ h =>
    obtain ⟨-, _, _, _, _, rfl⟩ := h
    exact .inl rfl
  | reset v hv => exact .inr (.inl ⟨v, rfl, hv, rfl⟩)
  | waited _ _ h =>
    rcases h.keeps.faults with h | ⟨-, h, -⟩
    · exact .inr (.inr h)
    · exact .inl h

/-- Settles O45, by the rules of the sequencer and the operations of the host. -/
theorem faultCodeIsWrittenByFaultEntryAlone : Obligations.FaultCodeIsWrittenByFaultEntryAlone := by
  intro s t h hne
  rcases step_cases h with ⟨-, h⟩ | ⟨op, rest, hq, h⟩
  · exact .inr (h.keeps.faults.resolve_right fun hk => hne hk.2.1)
  · rcases h.faultCode with h | ⟨v, rfl, hv, h⟩ | h
    · exact absurd h hne
    · exact .inl ⟨⟨v, rest, hq, hv⟩, h⟩
    · exact .inr h

end Sys2Proof.Machine
end

section
/-! Proofs of the statements on memory (spec 20_memory.md): pixels and addresses in RASTER, OUT, the spaces each phase
writes, the record RECON reads, and the bytes the host places in IN. -/

namespace Sys2Proof.Machine

/-! ### RASTER (R53, R59, R64) -/

/-- A whole pixel written is read back (R64). -/
theorem readPixel_writePixel_same {s : State} {y x : Nat} {p : Pixel} (hp : p.length = s.geometry.bpp) :
    (s.writePixel y x p).readPixel y x = p := by
  refine List.ext_getElem (by simp [hp]) fun k _ hk => ?_
  rw [readPixel_getElem, rasterByte_writePixel_same hk, lane_of_lt hk]

/-- Settles O30: the pixel by its bytes, the rest by what lies outside it. -/
theorem pixelWriteIsReadBack : Obligations.PixelWriteIsReadBack := by
  intro s y x p hp
  refine ⟨readPixel_writePixel_same hp, fun a ha => ?_, fun hwf => Memory.writeAll_wf hwf _ _⟩
  exact readByte_congr (read?_writePixel_outside fun k hk => ha k (hp ▸ hk)) rfl

/-- Settles O31, by division with remainder, by the pixel size and then by the width. -/
theorem rasterAddressesAreDistinct : Obligations.RasterAddressesAreDistinct :=
  fun _ _ _ _ _ _ _ hx hk hx' hk' => ⟨rasterAddr_inj hx hx' hk hk', fun hy => rasterAddr_lt hy hx hk⟩

/-! ### What the steps write (R54, R55) -/

/-- Settles O32, by the cases of a step outside IDLE: OUT stays unless the sequencer moves. -/
theorem outIsAppendOnly : Obligations.OutIsAppendOnly := by
  intro s t hp hr h
  obtain ⟨rest, rfl | ⟨bytes, -, rfl⟩ | ⟨-, hrule⟩⟩ := step_cases_in_run hp hr h
  · exact ⟨[], (List.append_nil _).symm, rfl⟩
  · exact ⟨[], (List.append_nil _).symm, rfl⟩
  · exact hrule.outBytes

/-- Settles O33, by what every rule of the sequencer keeps. -/
theorem stepsWriteOnlyTheirSpaces : Obligations.StepsWriteOnlyTheirSpaces := by
  intro s t hq h
  rw [step_of_nil hq] at h
  have hkeeps := (sequencerStep_cases h).keeps
  exact ⟨hkeeps.input, fun _ => hkeeps.ft, fun _ => hkeeps.raster,
    fun hp => ⟨hkeeps.out hp, hkeeps.outLen hp⟩⟩

/-! ### The record a RECON step executes (R67, R106) -/

/-- What decodes from the fetched record is the instruction of FT[POS_Y], on the pixels of the row. -/
theorem decode_fetchedRecord_ok {s : State} {i : Instr} {after : List Byte}
    (h : decode s.geometry s.fetchedRecord = .ok (i, after)) :
    opcodeByte i = s.readByte .ft s.posY.toNat ∧ i.pixels = s.readRow s.posY.toNat := by
  rw [decode_fetchedRecord] at h
  cases hd : decodeRecord (s.readByte .ft s.posY.toNat) (s.readRow s.posY.toNat) with
  | none => simp [hd] at h
  | some j =>
    obtain ⟨rfl, -⟩ : j = i ∧ [] = after := by simpa [hd] using h
    exact decodeRecord_eq_some.1 hd

/-- A record whose pixels are a row of RASTER is well formed (R76, R78). -/
theorem wellFormed_of_pixels_eq_readRow {s : State} {i : Instr} {y : Nat} (h : i.pixels = s.readRow y) :
    WellFormed s.geometry i := by
  refine wellFormed_iff.2 ⟨by rw [h, readRow_length], fun p hp => ?_⟩
  rw [h, State.readRow, List.mem_map] at hp
  obtain ⟨x, -, rfl⟩ := hp
  exact readPixel_length ..

/-- In RECON, with a row left, the sequencer executes the instruction FT and RASTER hold (R106). -/
theorem sequencerStep_of_fetched {s : State} {i : Instr} (hp : s.phase = .recon)
    (hy : s.posY.toNat < s.geometry.height) (ho : opcodeByte i = s.readByte .ft s.posY.toNat)
    (hi : i.pixels = s.readRow s.posY.toNat) : sequencerStep s = exec i s :=
  (SequencerRule.execute hp hy i ho hi).sequencerStep.trans (exec_eq_reconRow i s).symm

/-- Settles O6: the same rule of the sequencer, with the queue empty or the wait taken off it. -/
theorem stepExecutesTheDecodedRecord : Obligations.StepExecutesTheDecodedRecord := by
  intro s i hp hy h
  obtain ⟨ho, hi⟩ := decode_fetchedRecord_ok h
  refine ⟨wellFormed_of_pixels_eq_readRow hi, fun hq => ?_, fun rest hq => ?_⟩
  · rw [step_of_nil hq]
    exact sequencerStep_of_fetched hp hy ho hi
  · have hb : s.busy = true := busy_iff.2 (.inr (.inl hp))
    rw [step_of_wait hq, if_pos hb]
    exact sequencerStep_of_fetched (s := { s with hostQueue := rest }) hp hy ho hi

/-! ### The bytes the host places in IN (R66, R187) -/

/-- A step with the placing of bytes in IN pending (R66; log 7). -/
theorem step_of_place {s : State} {bytes : List Byte} {rest : List HostOp}
    (h : s.hostQueue = .place bytes :: rest) :
    step s = if s.busy then .refused .hostWritesInputDuringRun
      else .next { s with hostQueue := rest, input := s.input.writeAll 0 bytes } :=
  step_of_cons h

/-- Settles O42, by what is read inside and outside the bytes written. -/
theorem hostPlacesTheInput : Obligations.HostPlacesTheInput := by
  intro s bytes rest hq
  rw [step_of_place hq]
  refine ⟨fun hb => ⟨_, if_neg (by simp [hb]), rfl, fun a ha => ?_, fun a ha => ?_⟩, fun hb => if_pos hb⟩
  · refine readByte_of_read? ?_
    simpa using s.input.read?_writeAll_inside (a := 0) ha
  · exact readByte_congr (Memory.read?_writeAll_outside _ (.inr (by omega))) rfl

end Sys2Proof.Machine
end

section
/-! Proofs of the statements on encoding (spec 30_encoding.md): the decoder of records on the bytes of a record, the
offsets of the pixel operands, the placed table word, and the illegal filter-type byte. -/

namespace Sys2Proof

/-! ### The decoder and the encoder (R76 to R82) -/

/-- A first byte of 0 to 4 is the opcode of an instruction on any pixels (R81). -/
theorem exists_instr_of_opcode_le {ft : Byte} (h : ft.toNat ≤ 4) (pix : List Pixel) :
    ∃ i, opcodeByte i = ft ∧ i.pixels = pix := by
  cases hd : decodeRecord ft pix with
  | none => exact absurd (Machine.decodeRecord_eq_none.1 hd) (by omega)
  | some i => exact ⟨i, Machine.decodeRecord_eq_some.1 hd⟩

/-- The pixels of a well-formed record are the split of its pixel bytes, whatever follows them. -/
theorem WellFormed.splitPixels_eq {g : Geometry} {i : Instr} (h : WellFormed g i) (rest : List Byte) :
    splitPixels g.bpp g.width (i.pixels.flatten ++ rest) = i.pixels := by
  obtain ⟨hw, hp⟩ := Machine.wellFormed_iff.1 h
  rw [← hw]
  exact splitPixels_flatten hp rest

theorem WellFormed.flatten_length {g : Geometry} {i : Instr} (h : WellFormed g i) :
    i.pixels.flatten.length = g.width * g.bpp := by
  obtain ⟨hw, hp⟩ := Machine.wellFormed_iff.1 h
  rw [flatten_length_of_pixels hp, hw]

/-- Input shorter than a record is refused as truncated (R97). -/
theorem decode_of_short {g : Geometry} {bytes : List Byte} (h : bytes.length < g.recLen) :
    decode g bytes = .error .truncated := by
  cases bytes with
  | nil => rfl
  | cons ft rest =>
    rw [List.length_cons, Geometry.recLen] at h
    exact if_pos (by omega)

/-- A whole record with a first byte above 4 is refused under that byte (R80, R82). -/
theorem decode_of_illegal {g : Geometry} {ft : Byte} {rest : List Byte} (hlen : g.width * g.bpp ≤ rest.length)
    (h : 4 < ft.toNat) : decode g (ft :: rest) = .error (.unsupportedFilterType ft) := by
  rw [decode, if_neg (by omega), Machine.decodeRecord_eq_none.2 h]

/-- A whole record decodes to the instruction that has its first byte and its pixels (R81). -/
theorem decode_of_legal {g : Geometry} {i : Instr} {rest : List Byte} (hlen : g.width * g.bpp ≤ rest.length)
    (hi : i.pixels = splitPixels g.bpp g.width rest) :
    decode g (opcodeByte i :: rest) = .ok (i, rest.drop (g.width * g.bpp)) := by
  rw [decode, if_neg (by omega), Machine.decodeRecord_eq_some.2 ⟨rfl, hi⟩]

/-- Decoding undoes encoding and leaves what follows the record. -/
theorem decode_encode {g : Geometry} {i : Instr} (h : WellFormed g i) (rest : List Byte) :
    decode g (encode i ++ rest) = .ok (i, rest) := by
  have hlen := h.flatten_length
  have hwhole : g.width * g.bpp ≤ (i.pixels.flatten ++ rest).length := by
    rw [List.length_append]
    omega
  rw [encode, List.cons_append, decode_of_legal hwhole (h.splitPixels_eq rest).symm, ← hlen, List.drop_left]

/-- Settles O1: splitting the joined pixels gives them back, and the opcode gives the instruction. -/
theorem decodeOfEncodeIsTheRecord : Obligations.DecodeOfEncodeIsTheRecord :=
  fun _ _ rest h => decode_encode h rest

/-- An instruction on the split of whole pixel bytes is well formed, and its bytes are the ones split. -/
theorem wellFormed_and_encode_of_split {g : Geometry} {i : Instr} {rest : List Byte}
    (hlen : g.width * g.bpp ≤ rest.length) (hi : i.pixels = splitPixels g.bpp g.width rest) :
    WellFormed g i ∧ opcodeByte i :: rest = encode i ++ rest.drop (g.width * g.bpp) := by
  constructor
  · rw [Machine.wellFormed_iff, hi]
    exact ⟨splitPixels_length .., splitPixels_pixel_length hlen⟩
  · rw [encode, hi, flatten_splitPixels hlen, List.cons_append, List.take_append_drop]

/-- A whole record with a first byte of 0 to 4 decodes, to a well-formed instruction whose bytes are the ones read. -/
theorem exists_decode_of_opcode_le {g : Geometry} {ft : Byte} {rest : List Byte}
    (hlen : g.width * g.bpp ≤ rest.length) (h : ft.toNat ≤ 4) :
    ∃ i after, decode g (ft :: rest) = .ok (i, after) ∧ opcodeByte i = ft ∧ WellFormed g i ∧
      ft :: rest = encode i ++ after := by
  obtain ⟨i, rfl, hi⟩ := exists_instr_of_opcode_le h (splitPixels g.bpp g.width rest)
  exact ⟨i, _, decode_of_legal hlen hi, rfl, wellFormed_and_encode_of_split hlen hi⟩

/-- The pixel bytes of a whole record stand after its first byte (R77). -/
theorem recLen_le_cons_length {g : Geometry} {ft : Byte} {rest : List Byte} :
    g.recLen ≤ (ft :: rest).length ↔ g.width * g.bpp ≤ rest.length := by
  rw [Geometry.recLen, List.length_cons]
  omega

/-- Settles O2, by the length, then by the first byte. -/
theorem decodeAcceptsExactlyTheLegalRecords : Obligations.DecodeAcceptsExactlyTheLegalRecords := by
  refine fun g bytes => ⟨decode_of_short, ?_⟩
  rintro ft rest rfl hlen
  have hlen := recLen_le_cons_length.1 hlen
  exact ⟨decode_of_illegal hlen, exists_decode_of_opcode_le hlen⟩

/-- Exactly the bytes of a well-formed record, with what follows them, decode to it. -/
theorem decode_eq_ok_iff {g : Geometry} {bytes after : List Byte} {i : Instr} :
    decode g bytes = .ok (i, after) ↔ WellFormed g i ∧ bytes = encode i ++ after := by
  constructor
  · intro h
    by_cases hlen : bytes.length < g.recLen
    · simp [decode_of_short hlen] at h
    · cases bytes with
      | nil => cases h
      | cons ft rest =>
        have hwhole := recLen_le_cons_length.1 (Nat.le_of_not_lt hlen)
        by_cases hft : 4 < ft.toNat
        · simp [decode_of_illegal hwhole hft] at h
        · obtain ⟨j, after', hd, -, hrecord⟩ := exists_decode_of_opcode_le hwhole (Nat.le_of_not_lt hft)
          obtain ⟨rfl, rfl⟩ : j = i ∧ after' = after := by simpa [hd] using h
          exact hrecord
  · rintro ⟨hwf, rfl⟩
    exact decode_encode hwf after

/-- Settles O3: the record is an encoding, whose pixel bytes split at the offsets of R79. -/
theorem pixelOperandsStandAtTheirOffsets : Obligations.PixelOperandsStandAtTheirOffsets := by
  intro g bytes i after x k hd hx hk
  obtain ⟨hwf, rfl⟩ := decode_eq_ok_iff.1 hd
  calc (i.pixels[x]?.bind fun p => p[k]?)
      = ((splitPixels g.bpp g.width (i.pixels.flatten ++ after))[x]?.bind fun p => p[k]?) := by
        rw [hwf.splitPixels_eq]
    _ = (i.pixels.flatten ++ after)[x * g.bpp + k]? := splitPixels_getElem? hx hk
    _ = (encode i ++ after)[1 + x * g.bpp + k]? := by
        rw [encode, List.cons_append, Nat.add_assoc, Nat.add_comm 1, List.getElem?_cons_succ]

/-- Settles O4: each word is the encoding of its instruction, with what is left after it, and 0x81 is above 4. -/
theorem specWordsDecode : Obligations.SpecWordsDecode := by
  refine ⟨decode_eq_ok_iff.2 ?_, decode_eq_ok_iff.2 ?_, decode_eq_ok_iff.2 ?_, decode_eq_ok_iff.2 ?_,
    decode_eq_ok_iff.2 ?_, decode_eq_ok_iff.2 ?_, decode_eq_ok_iff.2 ?_, decode_of_illegal ?_ ?_⟩
  all_goals decide

namespace Machine

/-! ### The placed table word (log 12) -/

/-- Bytes written into an empty space from address 0 on are read back. -/
theorem readBytes_of_mem_eq {s : State} {sp : Space} {bs : List Byte}
    (h : s.mem sp = Memory.empty.writeAll 0 bs) : s.readBytes sp 0 bs.length = bs := by
  refine List.ext_getElem (by simp) fun k _ hk => ?_
  rw [readBytes_getElem]
  refine readByte_of_read? ?_
  rw [h]
  exact Memory.read?_writeAll_inside _ hk

/-- The record RECON fetches after a table word is placed: the word's bytes. -/
theorem fetchedRecord_withFetchWord (s : State) (nbits w : Nat) :
    (s.withFetchWord nbits w).fetchedRecord = tableBytes nbits w := by
  have hft := readBytes_of_mem_eq (s := s.withFetchWord nbits w) (sp := .ft) rfl
  have hraster := readBytes_of_mem_eq (s := s.withFetchWord nbits w) (sp := .raster) rfl
  calc (s.withFetchWord nbits w).fetchedRecord
      = (s.withFetchWord nbits w).readBytes .ft 0 ((tableBytes nbits w).take 1).length ++
          (s.withFetchWord nbits w).readBytes .raster 0 ((tableBytes nbits w).drop 1).length := rfl
    _ = (tableBytes nbits w).take 1 ++ (tableBytes nbits w).drop 1 := by rw [hft, hraster]
    _ = tableBytes nbits w := List.take_append_drop ..

theorem decode_of_decodeTableWord {nbits w : Nat} {i : Instr} (h : decodeTableWord nbits w = some i) :
    ∃ after, decode tableGeometry (tableBytes nbits w) = .ok (i, after) := by
  unfold decodeTableWord at h
  split at h
  · rename_i j after hd
    obtain rfl : j = i := by simpa using h
    exact ⟨after, hd⟩
  · cases h

/-- Settles O5: the placed word is the record RECON fetches, and the sequencer executes that one. -/
theorem placedTableWordIsExecutedNext : Obligations.PlacedTableWordIsExecutedNext := by
  intro s nbits w i h
  obtain ⟨after, hd⟩ := decode_of_decodeTableWord h
  rw [← fetchedRecord_withFetchWord s, ← withFetchWord_geometry s nbits w] at hd
  obtain ⟨ho, hi⟩ := decode_fetchedRecord_ok hd
  have hrow : (s.withFetchWord nbits w).posY.toNat < (s.withFetchWord nbits w).geometry.height :=
    Nat.zero_lt_one
  rw [step_of_nil rfl]
  exact sequencerStep_of_fetched rfl hrow ho hi

/-! ### The illegal filter-type byte (R82, R162, R169) -/

/-- Settles O13: the step is the rule of the bad filter byte, and fault entry keeps the rest. -/
theorem illegalFilterTypeEntersFault : Obligations.IllegalFilterTypeEntersFault := by
  intro s hq hp hy hft
  have hstep : step s = .next (raise (.unsupportedFilterType (s.readByte .ft s.posY.toNat)) s) := by
    rw [step_of_nil hq]
    exact (SequencerRule.badFilter hp hy hft).sequencerStep
  exact ⟨_, hstep, rfl, rfl, rfl, rfl, rfl, rfl, rfl, rfl, rfl, rfl, rfl, rfl, rfl, rfl⟩

end Machine

end Sys2Proof
end

section
/-! Proofs of the statements on the Raster Splitter (spec 40_raster_split.md): the LOAD step, truncated input, the
order of the phases, and that every step of a run follows the reference functions. -/

namespace Sys2Proof.Machine

/-! ### The LOAD step and the row step (R96, R97, R99, R106) -/

section
variable {s : State} (h : ¬ s.inPos.toNat + s.geometry.recLen > s.inLen.toNat)
include h

/-- What a LOAD step leaves unchanged: all but FT, RASTER, IN_POS and POS_Y (R96). -/
theorem loadRecord_frame :
    loadRecord s = { s with
      ft := (loadRecord s).ft, raster := (loadRecord s).raster
      inPos := s.inPos + BitVec.ofNat 32 s.geometry.recLen, posY := s.posY + 1 } := by
  obtain ⟨ras, -, e⟩ := loadRecord_eq h
  rw [e]
  rfl

theorem loadRecord_phase : (loadRecord s).phase = s.phase := by rw [loadRecord_frame h]

theorem loadRecord_posY : (loadRecord s).posY = s.posY + 1 := by rw [loadRecord_frame h]

theorem loadRecord_inPos_toNat : (loadRecord s).inPos.toNat = s.inPos.toNat + s.geometry.recLen := by
  rw [loadRecord_frame h]
  exact inPos_add_recLen h

theorem loadRecord_inputBytes : (loadRecord s).inputBytes = s.inputBytes :=
  inputBytes_congr (by rw [loadRecord_frame h]) (loadRecord_epoch h)

end

section
variable (f : Pixel → Pixel → Pixel → Pixel → Pixel) (pix : List Pixel) (s : State)

theorem reconRow_phase : (reconRow f pix s).phase = s.phase := by
  obtain ⟨_, _, _, _, _, e⟩ := reconRow_frame f pix s
  rw [e]

theorem reconRow_posY : (reconRow f pix s).posY = s.posY + 1 := by
  obtain ⟨_, _, _, _, _, e⟩ := reconRow_frame f pix s
  rw [e]

theorem reconRow_inputBytes : (reconRow f pix s).inputBytes = s.inputBytes := by
  obtain ⟨_, _, _, _, _, e⟩ := reconRow_frame f pix s
  rw [e]
  rfl

theorem reconRow_readByte_ft (y : Nat) : (reconRow f pix s).readByte .ft y = s.readByte .ft y := by
  obtain ⟨_, _, _, _, _, e⟩ := reconRow_frame f pix s
  rw [e]
  rfl

theorem reconRow_refByte : (reconRow f pix s).refByte = s.refByte := by
  obtain ⟨_, _, _, _, _, e⟩ := reconRow_frame f pix s
  rw [e]
  rfl

end

/-- Settles O21: the step is the fetch of one record. -/
theorem loadStepFetchesOneRecord : Obligations.LoadStepFetchesOneRecord := by
  intro s hq hp hy hlen
  have h : ¬ s.inPos.toNat + s.geometry.recLen > s.inLen.toNat := not_lt.2 hlen
  refine ⟨loadRecord s, ?_, loadRecord_ft_same h, fun x k => loadRecord_rasterByte h, loadRecord_inPos_toNat h,
    ?_, ?_, fun y => loadRecord_ft_other h, fun a ha => ?_⟩
  · rw [step_of_nil hq]
    exact (SequencerRule.fetch hp hy h).sequencerStep
  · rw [loadRecord_posY h]
    exact posY_succ hy
  · rw [loadRecord_frame h]
  · refine readByte_congr (loadRecord_read?_outside h ?_) (loadRecord_epoch h)
    rintro ⟨x, k, hx, hk, rfl⟩
    exact ha x k hx hk (by rw [Nat.zero_add])

/-- Settles O22: the step is fault entry, and legality keeps `EXPECTED_LEN` below 2^32. -/
theorem truncatedInputEntersFault : Obligations.TruncatedInputEntersFault := by
  intro s hq hp hy hl hlen
  have hstep : step s = .next (raise .truncatedInput s) := by
    rw [step_of_nil hq]
    exact (SequencerRule.truncated hp hy hlen).sequencerStep
  have hexp : (raise .truncatedInput s).faultExpected.toNat = s.geometry.expectedLen :=
    Nat.mod_eq_of_lt (Geometry.legal_expectedLen hl)
  exact ⟨_, hstep, rfl, rfl, rfl, hexp, rfl, rfl, rfl, rfl, rfl, rfl, rfl, rfl, rfl, rfl⟩

/-- With a row left, LOAD and RECON stay or fault (R99). -/
theorem SequencerRule.phase_of_row_left {s t : State} (h : SequencerRule s t)
    (hy : s.posY.toNat < s.geometry.height) (hp : s.phase = .load ∨ s.phase = .recon) :
    t.phase = s.phase ∨ t.phase = .fault := by
  cases h with
  | fetch _ _ h => exact .inl (loadRecord_phase h)
  | execute => exact .inl (reconRow_phase ..)
  | truncated | badFilter => exact .inr rfl
  | loadEnd _ hy' | reconEnd _ hy' => omega
  | emitHeader hp' | emitEnd hp' | emitPixel hp' | emitPad hp' => simp [hp'] at hp

/-- Settles O23: the ends of LOAD and RECON are rules of the sequencer, enabled when every row is done alone. -/
theorem phasesFollowOneAnother : Obligations.PhasesFollowOneAnother := by
  intro s hq
  rw [step_of_nil hq]
  refine ⟨fun hy => ⟨fun hp => (SequencerRule.loadEnd hp hy).sequencerStep,
    fun hp => (SequencerRule.reconEnd hp hy).sequencerStep⟩, fun hy t h => ?_⟩
  have hphase := (sequencerStep_cases h).phase_of_row_left hy
  exact ⟨fun hp => hp ▸ hphase (.inl hp), fun hp => hp ▸ hphase (.inr hp)⟩

/-! ### The reference, phase by phase -/

section
variable {s : State}

theorem followsReference_load (hp : s.phase = .load) :
    FollowsReference s ↔ FiltersLoaded s s.posY.toNat ∧ RowsEncoded s 0 s.posY.toNat := by
  simp only [FollowsReference, hp]

theorem followsReference_recon (hp : s.phase = .recon) :
    FollowsReference s ↔ FiltersLoaded s s.geometry.height ∧ FiltersLegal s s.posY.toNat ∧
      RowsReconstructed s s.posY.toNat ∧ RowsEncoded s s.posY.toNat s.geometry.height := by
  simp only [FollowsReference, hp]

theorem followsReference_emit (hp : s.phase = .emit) :
    FollowsReference s ↔ FiltersLegal s s.geometry.height ∧ RowsReconstructed s s.geometry.height ∧
      (s.outLen = 0 ∨ s.outBytes = emitted s) := by
  simp only [FollowsReference, hp]

end

/-! ### What the reference functions read is what no rule of the sequencer changes -/

section
variable {s t : State} (k : SequencerKeeps s t)
include k

theorem SequencerKeeps.inputBytes : t.inputBytes = s.inputBytes := inputBytes_congr k.input k.epoch

theorem SequencerKeeps.refByte : t.refByte = s.refByte := refByte_congr k.params k.geometry k.inputBytes

theorem SequencerKeeps.filtersLegal {n : Nat} : FiltersLegal t n ↔ FiltersLegal s n := by
  rw [FiltersLegal, FiltersLegal, k.geometry, k.inputBytes]

end

/-! ### LOAD (R100) -/

section
variable {s : State} (h : ¬ s.inPos.toNat + s.geometry.recLen > s.inLen.toNat)
  (hin : s.inPos.toNat = s.posY.toNat * s.geometry.recLen)
include h hin

/-- LOAD of a record loads its filter-type byte. -/
theorem filtersLoaded_loadRecord (hft : FiltersLoaded s s.posY.toNat) :
    FiltersLoaded (loadRecord s) (s.posY.toNat + 1) := by
  intro y hy
  rw [loadRecord_geometry h, loadRecord_inputBytes h]
  rcases Nat.lt_succ_iff_lt_or_eq.1 hy with hy | rfl
  · rw [loadRecord_ft_other h hy.ne]
    exact hft y hy
  · rw [loadRecord_ft_same h, hin]
    rfl

/-- LOAD of a record loads its pixels. -/
theorem rowsEncoded_loadRecord (henc : RowsEncoded s 0 s.posY.toNat) :
    RowsEncoded (loadRecord s) 0 (s.posY.toNat + 1) := by
  intro y x c h0 hy hx hc
  rw [loadRecord_geometry h] at hx hc
  rw [loadRecord_geometry h, loadRecord_inputBytes h]
  rcases Nat.lt_succ_iff_lt_or_eq.1 hy with hy | rfl
  · rw [loadRecord_rasterByte_other h hx hc hy.ne]
    exact henc y x c h0 hy hx hc
  · rw [loadRecord_rasterByte h hx hc, hin]
    rfl

end

theorem followsReference_loadRecord {s : State} (hp : s.phase = .load) (hy : s.posY.toNat < s.geometry.height)
    (h : ¬ s.inPos.toNat + s.geometry.recLen > s.inLen.toNat) (hpos : PositionOk s) (hf : FollowsReference s) :
    FollowsReference (loadRecord s) := by
  simp only [PositionOk, hp] at hpos
  obtain ⟨-, -, -, hin, -⟩ := hpos
  obtain ⟨hft, henc⟩ := (followsReference_load hp).1 hf
  rw [followsReference_load ((loadRecord_phase h).trans hp), loadRecord_posY h, posY_succ hy]
  exact ⟨filtersLoaded_loadRecord h hin hft, rowsEncoded_loadRecord h hin henc⟩

theorem followsReference_loadEnd {s : State} (hp : s.phase = .load) (hy : s.posY.toNat = s.geometry.height)
    (hf : FollowsReference s) : FollowsReference (loadEnd s) := by
  obtain ⟨hft, henc⟩ := (followsReference_load hp).1 hf
  rw [hy] at hft henc
  exact ⟨hft, fun y h => absurd h (Nat.not_lt_zero y), fun y _ _ h => absurd h (Nat.not_lt_zero y), henc⟩

/-! ### RECON (R118, R122) -/

/-- The row a RECON step leaves is the reference row: both are the encoded byte plus the predictor over
the same neighbours, the left one by induction on the column (R122). -/
theorem rasterByte_reconRow_eq_refByte {s : State} {i : Instr}
    (ho : opcodeByte i = filterByte s.geometry s.inputBytes s.posY.toNat)
    (hi : i.pixels = s.readRow s.posY.toNat) (hy : s.posY.toNat < s.geometry.height)
    (henc : RowsEncoded s s.posY.toNat s.geometry.height) (hrec : RowsReconstructed s s.posY.toNat)
    {x c : Nat} (hx : x < s.geometry.width) (hc : c < s.geometry.bpp) :
    (reconRow (pixelOp s.params.paethWiden i) i.pixels s).rasterByte s.posY.toNat x c =
      s.refByte s.posY.toNat x c := by
  induction x using Nat.strong_induction_on with
  | _ x ih =>
    have hx' : x < i.pixels.length := by rwa [hi, readRow_length]
    have hlane : lane i.pixels[x] c = encodedByte s.geometry s.inputBytes s.posY.toNat x c := by
      simp only [hi, readRow_getElem, lane_readPixel hc]
      exact henc _ x c le_rfl hy hx hc
    rw [rasterByte_exec (wellFormed_of_pixels_eq_readRow hi) hx' hc, hlane, ho, State.refByte, refRaster_eq]
    congr 2
    · split
      · exact ih (x - 1) (by omega) (by omega)
      · rfl
    · split
      · exact hrec _ x c (by omega) hx hc
      · rfl
    · split
      · exact hrec _ (x - 1) c (by omega) (by omega) hc
      · rfl

section
variable {s : State} {i : Instr} (hi : i.pixels = s.readRow s.posY.toNat)
include hi

/-- A RECON step leaves the rows after its own encoded. -/
theorem rowsEncoded_reconRow (henc : RowsEncoded s s.posY.toNat s.geometry.height) :
    RowsEncoded (reconRow (pixelOp s.params.paethWiden i) i.pixels s) (s.posY.toNat + 1) s.geometry.height := by
  intro y x c hlo hhi hx hc
  rw [reconRow_geometry] at hx hc
  rw [reconRow_geometry, reconRow_inputBytes,
    rasterByte_reconRow_other (keepsLength_pixelOp _ i) (by rw [hi, readRow_length]) hx hc (by omega)]
  exact henc y x c (by omega) hhi hx hc

/-- A RECON step reconstructs its row and leaves the rows before it reconstructed. -/
theorem rowsReconstructed_reconRow (hy : s.posY.toNat < s.geometry.height)
    (ho : opcodeByte i = filterByte s.geometry s.inputBytes s.posY.toNat)
    (henc : RowsEncoded s s.posY.toNat s.geometry.height) (hrec : RowsReconstructed s s.posY.toNat) :
    RowsReconstructed (reconRow (pixelOp s.params.paethWiden i) i.pixels s) (s.posY.toNat + 1) := by
  intro y x c hlt hx hc
  rw [reconRow_geometry] at hx hc
  rw [reconRow_refByte]
  rcases Nat.lt_succ_iff_lt_or_eq.1 hlt with hlt | rfl
  · rw [rasterByte_reconRow_other (keepsLength_pixelOp _ i) (by rw [hi, readRow_length]) hx hc hlt.ne]
    exact hrec y x c hlt hx hc
  · exact rasterByte_reconRow_eq_refByte ho hi hy henc hrec hx hc

end

theorem opcodeByte_toNat_le (i : Instr) : (opcodeByte i).toNat ≤ 4 := by
  cases i <;> simp [opcodeByte]

/-- The filter-type byte of a row is legal where an instruction has it as its opcode (R81). -/
theorem filtersLegal_succ {s : State} {i : Instr} {y : Nat}
    (ho : opcodeByte i = filterByte s.geometry s.inputBytes y) (h : FiltersLegal s y) : FiltersLegal s (y + 1) := by
  intro y' hy'
  rcases Nat.lt_succ_iff_lt_or_eq.1 hy' with hy' | rfl
  · exact h y' hy'
  · exact ho ▸ opcodeByte_toNat_le i

theorem followsReference_reconRow {s : State} {i : Instr} (hp : s.phase = .recon)
    (hy : s.posY.toNat < s.geometry.height) (ho : opcodeByte i = s.readByte .ft s.posY.toNat)
    (hi : i.pixels = s.readRow s.posY.toNat) (hf : FollowsReference s) :
    FollowsReference (reconRow (pixelOp s.params.paethWiden i) i.pixels s) := by
  have k := (SequencerRule.execute hp hy i ho hi).keeps
  obtain ⟨hft, hlegal, hrec, henc⟩ := (followsReference_recon hp).1 hf
  rw [hft _ hy] at ho
  rw [followsReference_recon ((reconRow_phase ..).trans hp), reconRow_posY, posY_succ hy, k.filtersLegal,
    reconRow_geometry]
  refine ⟨fun y hlt => ?_, filtersLegal_succ ho hlegal, rowsReconstructed_reconRow hi hy ho henc hrec,
    rowsEncoded_reconRow hi henc⟩
  rw [reconRow_geometry, reconRow_inputBytes, reconRow_readByte_ft]
  exact hft y hlt

/-- The filter-type byte a fault records is that of the row it stops at, the first illegal one (R162). -/
theorem followsReference_badFilter {s : State} (hp : s.phase = .recon) (hy : s.posY.toNat < s.geometry.height)
    (hf : FollowsReference s) :
    FollowsReference (raise (.unsupportedFilterType (s.readByte .ft s.posY.toNat)) s) := by
  obtain ⟨hft, hlegal, -⟩ := (followsReference_recon hp).1 hf
  exact fun _ => ⟨hft _ hy, hlegal⟩

theorem followsReference_reconEnd {s : State} (hp : s.phase = .recon) (hy : s.posY.toNat = s.geometry.height)
    (hpos : PositionOk s) (hf : FollowsReference s) : FollowsReference (reconEnd s) := by
  simp only [PositionOk, hp] at hpos
  obtain ⟨-, -, -, -, -, hout, -⟩ := hpos
  obtain ⟨-, hlegal, hrec, -⟩ := (followsReference_recon hp).1 hf
  rw [hy] at hlegal hrec
  exact ⟨hlegal, hrec, .inl hout⟩

/-! ### EMIT (R140, R149) -/

/-- At the first pixel of a row OUT holds the header and the rows below. -/
theorem emitted_of_posX {s : State} (hx : s.posX = 0) :
    emitted s = refHeader s.geometry ++ refRowsDownTo s.params s.geometry s.refByte s.posY.toNat := by
  rw [emitted, hx]
  exact List.append_nil _

/-- EMIT_PIX appends the next pixel of the row under way. -/
theorem emitted_emitPixel {s : State} (hx : s.posX.toNat < s.geometry.width) :
    emitted (emitPixel s) = emitted s ++ [s.refByte (s.posY.toNat - 1) s.posX.toNat 2,
      s.refByte (s.posY.toNat - 1) s.posX.toNat 1, s.refByte (s.posY.toNat - 1) s.posX.toNat 0] := by
  rw [emitted, emitted, List.append_assoc _ (refPixels ..), ← refPixels_succ, emitPixel_posX, posX_succ hx]
  rfl

/-- EMIT_PAD completes the row under way, and the next one is the one above (R144). -/
theorem emitted_emitPad {s : State} (hy0 : 0 < s.posY.toNat) (hy : s.posY.toNat ≤ s.geometry.height)
    (hx : s.posX.toNat = s.geometry.width) :
    emitted (emitPad s) = emitted s ++ List.replicate (s.geometry.pad s.params.padRule) 0 := by
  have href : (emitPad s).refByte = s.refByte := rfl
  rw [emitted_of_posX (emitPad_posX s), emitPad_geometry, emitPad_params, href, emitPad_posY, posY_pred hy0,
    refRowsDownTo_pred _ _ _ hy0 hy, emitted, refOutRow, hx]
  simp only [List.append_assoc]

section
variable {s : State} (hp : s.phase = .emit) (hpos : PositionOk s) (hf : FollowsReference s)
include hp hf

/-- A rule of EMIT that stays there keeps what is said of IN and RASTER, so OUT alone is to be checked. -/
theorem SequencerRule.followsReference_of_emit {t : State} (h : SequencerRule s t) (hp' : t.phase = .emit)
    (hout : t.outBytes = emitted t) : FollowsReference t := by
  have k := h.keeps
  obtain ⟨hlegal, hrec, -⟩ := (followsReference_emit hp).1 hf
  rw [followsReference_emit hp', k.geometry, k.filtersLegal]
  refine ⟨hlegal, fun y x c hy hx hc => ?_, .inr hout⟩
  rw [k.geometry] at hx hc
  rw [k.refByte, rasterByte_congr k.geometry k.epoch (by rw [k.raster hp])]
  exact hrec y x c hy hx hc

/-- Once the header is out, OUT holds the header and the rows and pixels behind the position. -/
theorem outBytes_eq_emitted (h : 54 ≤ s.outLen) : s.outBytes = emitted s := by
  obtain ⟨-, -, hout⟩ := (followsReference_emit hp).1 hf
  exact hout.resolve_left (by omega)

include hpos

theorem followsReference_emitHeader (h : s.outLen = 0) : FollowsReference (emitHeader s) := by
  refine (SequencerRule.emitHeader hp h).followsReference_of_emit hp hf hp ?_
  simp only [PositionOk, hp] at hpos
  obtain ⟨-, -, -, -, -, -, hcount, -⟩ := hpos
  obtain ⟨-, hy, hx⟩ : s.outLen = 0 ∧ s.posY = s.cfgHeight ∧ s.posX = 0 := hcount.resolve_right (by omega)
  have hempty : s.outBytes = [] := List.eq_nil_of_length_eq_zero (by rw [outBytes_length, h])
  calc (emitHeader s).outBytes
      = s.outBytes ++ refHeader s.geometry := outBytes_appendOut ..
    _ = refHeader s.geometry ++ refRowsDownTo s.params s.geometry s.refByte s.geometry.height := by
        rw [hempty, refRowsDownTo_height, List.append_nil, List.nil_append]
    _ = emitted (emitHeader s) := by
        rw [emitted_of_posX (s := emitHeader s) hx, emitHeader_posY, hy]
        rfl

theorem followsReference_emitPixel (h : 54 ≤ s.outLen) (hy : 0 < s.posY.toNat)
    (hx : s.posX.toNat < s.geometry.width) : FollowsReference (emitPixel s) := by
  refine (SequencerRule.emitPixel hp h hy hx).followsReference_of_emit hp hf hp ?_
  simp only [PositionOk, hp] at hpos
  obtain ⟨-, hyH, -⟩ := hpos
  obtain ⟨-, hrec, -⟩ := (followsReference_emit hp).1 hf
  have hbpp : 3 ≤ s.geometry.bpp := by rcases s.geometry.bpp_cases with e | e <;> omega
  have hbyte : ∀ c, c < 3 → s.rasterByte (s.posY.toNat - 1) s.posX.toNat c =
      s.refByte (s.posY.toNat - 1) s.posX.toNat c := fun c hc => hrec _ _ c (by omega) hx (by omega)
  calc (emitPixel s).outBytes
      = s.outBytes ++ bgr (s.readPixel (s.posY.toNat - 1) s.posX.toNat) := outBytes_appendOut ..
    _ = emitted (emitPixel s) := by
        rw [outBytes_eq_emitted hp hf h, emitted_emitPixel hx, bgr_readPixel, hbyte 0 (by decide),
          hbyte 1 (by decide), hbyte 2 (by decide)]

theorem followsReference_emitPad (h : 54 ≤ s.outLen) (hy : 0 < s.posY.toNat)
    (hx : s.posX.toNat = s.geometry.width) : FollowsReference (emitPad s) := by
  refine (SequencerRule.emitPad hp h hy hx).followsReference_of_emit hp hf hp ?_
  simp only [PositionOk, hp] at hpos
  obtain ⟨-, hyH, -⟩ := hpos
  rw [emitted_emitPad hy hyH hx, ← outBytes_eq_emitted hp hf h]
  exact outBytes_appendOut ..

theorem followsReference_emitEnd (h : 54 ≤ s.outLen) (hy : s.posY.toNat = 0) : FollowsReference (emitEnd s) := by
  simp only [PositionOk, hp] at hpos
  obtain ⟨-, -, -, -, -, hx, -⟩ := hpos
  obtain ⟨hlegal, hrec, -⟩ := (followsReference_emit hp).1 hf
  refine ⟨hlegal, hrec, ?_⟩
  calc (emitEnd s).outBytes
      = s.outBytes := outBytes_congr rfl rfl rfl
    _ = emitted s := outBytes_eq_emitted hp hf h
    _ = refBmp s.params s.geometry s.inputBytes := by
        rw [emitted_of_posX (hx (BitVec.eq_of_toNat_eq hy)), hy]
        rfl

end

/-! ### Every step of a run -/

/-- Every rule of the sequencer keeps FT, RASTER and OUT in agreement with the reference. -/
theorem SequencerRule.followsReference {s t : State} (h : SequencerRule s t) (hpos : PositionOk s)
    (hf : FollowsReference s) : FollowsReference t := by
  cases h with
  | fetch hp hy h => exact followsReference_loadRecord hp hy h hpos hf
  | truncated => exact fun hcode => absurd hcode (by decide : (1 : Byte) ≠ 2)
  | loadEnd hp hy => exact followsReference_loadEnd hp hy hf
  | execute hp hy i ho hi => exact followsReference_reconRow hp hy ho hi hf
  | badFilter hp hy => exact followsReference_badFilter hp hy hf
  | reconEnd hp hy => exact followsReference_reconEnd hp hy hpos hf
  | emitHeader hp h => exact followsReference_emitHeader hp hpos hf h
  | emitEnd hp h hy => exact followsReference_emitEnd hp hpos hf h hy
  | emitPixel hp h hy hx => exact followsReference_emitPixel hp hpos hf h hy hx
  | emitPad hp h hy hx => exact followsReference_emitPad hp hpos hf h hy hx

/-- Settles O50: RESET leads to IDLE, where nothing is asked; any other step of a run is a rule of the
sequencer or changes the queue alone. -/
theorem everyRunStepFollowsTheReference : Obligations.EveryRunStepFollowsTheReference := by
  intro s t hi hf hb h
  by_cases hr : ResetPending s
  · obtain ⟨v, rest, hq, hv⟩ := hr
    rw [step_of_reset hq hv] at h
    injection h with h
    subst h
    trivial
  · have hp : s.phase ≠ .idle := fun hp => by simp [busy_iff, hp] at hb
    obtain ⟨rest, rfl | ⟨bytes, hidle, -⟩ | ⟨-, hrule⟩⟩ := step_cases_in_run hp hr h
    · exact hf
    · simp [hb] at hidle
    · exact hrule.followsReference (hi.withQueue rest).position hf

end Sys2Proof.Machine
end

section
/-! Proofs of the statements on the defilter (spec 41_defilter.md): the predictor functions, the row of each of the
five instructions, the edges of the raster, and that a row step undoes the forward filter. -/

namespace Sys2Proof.Machine

/-! ### The Average predictor (R115, R117) -/

theorem avg_comm (a b : Byte) : avg a b = avg b a := by
  rw [avg, avg, Nat.add_comm]

theorem avg_self (a : Byte) : avg a a = a := by
  refine BitVec.eq_of_toNat_eq ?_
  rw [avg_toNat]
  omega

/-- With nothing above, the mean is half the left byte (R117). -/
theorem avg_zero_right (a : Byte) : avg a 0 = BitVec.ofNat 8 (a.toNat / 2) := rfl

/-- With nothing to the left, the mean is half the byte above (R117). -/
theorem avg_zero_left (b : Byte) : avg 0 b = BitVec.ofNat 8 (b.toNat / 2) := by
  rw [avg_comm, avg_zero_right]

/-- Settles O20: the halved sum, 255 at most, fits a byte. -/
theorem averageIsTheExactFloor : Obligations.AverageIsTheExactFloor :=
  fun a b => ⟨avg_toNat a b, avg_comm a b, avg_self a⟩

/-! ### The Paeth predictor (R114) -/

theorem widen_sext8 (a : Byte) :
    widen .sext8 a = if a.toNat < 128 then (a.toNat : Int) else a.toNat - 256 := by
  have : 2 * a.toNat < 2 ^ 8 ↔ a.toNat < 128 := by omega
  simp only [widen, BitVec.toInt_eq_toNat_cond, this]
  rfl

/-- How far the widened value of `v` lies from `a' + b' - c'` (R114). -/
def paethDist (w : PaethWiden) (a b c v : Byte) : Int :=
  |widen w a + widen w b - widen w c - widen w v|

/-- The Paeth predictor by the distances of its operands. -/
theorem paeth_eq_ite (w : PaethWiden) (a b c : Byte) :
    paeth w a b c =
      if paethDist w a b c a ≤ paethDist w a b c b ∧ paethDist w a b c a ≤ paethDist w a b c c then a
      else if paethDist w a b c b ≤ paethDist w a b c c then b else c := by
  simp only [paeth, paethDist, Int.abs_eq_natAbs, Int.ofNat_le]

/-- The three answers of the Paeth predictor, each with the distances that lead to it: ties go to `a`,
then to `b` (R114). -/
theorem paeth_cases (w : PaethWiden) (a b c : Byte) :
    (paeth w a b c = a ∧ paethDist w a b c a ≤ paethDist w a b c b ∧
      paethDist w a b c a ≤ paethDist w a b c c) ∨
    (paeth w a b c = b ∧ paethDist w a b c b < paethDist w a b c a ∧
      paethDist w a b c b ≤ paethDist w a b c c) ∨
    (paeth w a b c = c ∧ paethDist w a b c c < paethDist w a b c a ∧
      paethDist w a b c c < paethDist w a b c b) := by
  rw [paeth_eq_ite]
  split
  · rename_i ha
    exact .inl ⟨rfl, ha⟩
  · split
    · exact .inr (.inl ⟨rfl, by omega, by omega⟩)
    · exact .inr (.inr ⟨rfl, by omega, by omega⟩)

/-- Settles O18, by which operand the predictor answers: the distances that lead to it rule out the
clauses of the other two. -/
theorem paethChoosesTheNearestCandidate : Obligations.PaethChoosesTheNearestCandidate := by
  intro w a b c p d
  refine ⟨rfl, widen_sext8 a, ?_⟩
  obtain ⟨e, hb, hc⟩ | ⟨e, ha, hc⟩ | ⟨e, ha, hb⟩ := paeth_cases w a b c <;> rw [e]
  · exact ⟨.inl rfl, le_rfl, hb, hc, fun _ _ => rfl, fun h => absurd hb h.not_ge, fun h => absurd hc h.not_ge⟩
  · exact ⟨.inr (.inl rfl), ha.le, le_rfl, hc, fun h => absurd ha h.not_gt, fun _ _ => rfl,
      fun _ h => absurd hc h.not_ge⟩
  · exact ⟨.inr (.inr rfl), ha.le, hb.le, le_rfl, fun _ h => absurd ha h.not_gt,
      fun _ h => absurd hb h.not_gt, fun _ _ => rfl⟩

/-- Below 128 a byte has the same value under both widenings (U1). -/
theorem widen_sext8_of_lt {a : Byte} (h : a.toNat < 128) : widen .sext8 a = widen .zext a := by
  rw [widen_sext8, if_pos h]
  rfl

/-- Settles O19: three equal operands are all at distance 0, and below 128 the widened values are alike. -/
theorem paethWideningsAgreeBelow128 : Obligations.PaethWideningsAgreeBelow128 := by
  refine ⟨fun w v => ?_, fun a b c ha hb hc => ?_⟩
  · rw [paeth_eq_ite, if_pos ⟨le_rfl, le_rfl⟩]
  · simp only [paeth, widen_sext8_of_lt ha, widen_sext8_of_lt hb, widen_sext8_of_lt hc]

/-! ### The five instructions (R109 to R113) -/

/-- Settles O7: the predictor of NONE is 0. -/
theorem noneKeepsEveryByte : Obligations.NoneKeepsEveryByte := by
  intro s pix hwf hy
  obtain ⟨t, ht, hx, hy', hrow⟩ := exec_row _ hwf hy
  refine ⟨rfl, t, ht, hx, hy', fun x k hlt hk => ?_⟩
  rw [hrow x k hlt hk, predictor_none]
  exact BitVec.add_zero _

/-- Bytes of which each is the encoded one plus the one to its left add up modulo 256 to the encoded bytes
so far (R110). -/
theorem toNat_eq_sum_of_left_recurrence {row : Nat → Byte} {pix : List Pixel} {k : Nat}
    (h : ∀ x (hx : x < pix.length), row x = lane pix[x] k + if x > 0 then row (x - 1) else 0) {x : Nat}
    (hx : x < pix.length) : (row x).toNat = ((pix.take (x + 1)).map fun p => (lane p k).toNat).sum % 256 := by
  induction x with
  | zero =>
    rw [h 0 hx]
    simpa [List.take_succ_eq_append_getElem hx] using (Nat.mod_eq_of_lt (lane pix[0] k).isLt).symm
  | succ x ih =>
    rw [h (x + 1) hx, if_pos x.succ_pos, Nat.add_sub_cancel, BitVec.toNat_add, ih (by omega),
      List.take_succ_eq_append_getElem hx, List.map_append, List.sum_append, List.map_singleton,
      List.sum_singleton]
    omega

/-- Settles O8: the recurrence on the left byte is the row step's, and the sum follows from it. -/
theorem subIsARunningSum : Obligations.SubIsARunningSum := by
  intro s pix hwf hy
  obtain ⟨t, ht, hx, hy', hrow⟩ := exec_row _ hwf hy
  simp only [predictor_sub] at hrow
  refine ⟨rfl, t, ht, hx, hy', fun x k hlt hk => ⟨?_, ?_⟩⟩
  · rw [hrow x k hlt hk, BitVec.toNat_add, apply_ite BitVec.toNat]
    rfl
  · exact toNat_eq_sum_of_left_recurrence (row := fun x => t.rasterByte s.posY.toNat x k)
      (fun x hlt => hrow x k hlt hk) hlt

/-- Settles O9: the predictor of UP is the byte above. -/
theorem upAddsThePixelAbove : Obligations.UpAddsThePixelAbove := by
  intro s pix hwf hy
  obtain ⟨t, ht, hx, hy', hrow⟩ := exec_row _ hwf hy
  refine ⟨rfl, t, ht, hx, hy', fun x k hlt hk => ?_⟩
  rw [hrow x k hlt hk, predictor_up, BitVec.toNat_add, apply_ite BitVec.toNat]
  rfl

/-- Settles O10: the predictor of AVERAGE is the exact floor of the mean. -/
theorem averageAddsTheFloorOfTheMean : Obligations.AverageAddsTheFloorOfTheMean := by
  intro s pix hwf hy
  obtain ⟨t, ht, hx, hy', hrow⟩ := exec_row _ hwf hy
  refine ⟨rfl, t, ht, hx, hy', fun x k hlt hk => ?_⟩
  rw [hrow x k hlt hk, predictor_average, BitVec.toNat_add, avg_toNat, apply_ite BitVec.toNat,
    apply_ite BitVec.toNat]
  rfl

/-- Settles O11: the predictor of PAETH is the Paeth choice. -/
theorem paethAddsTheChosenNeighbour : Obligations.PaethAddsTheChosenNeighbour := by
  intro s pix hwf hy
  obtain ⟨t, ht, hx, hy', hrow⟩ := exec_row _ hwf hy
  refine ⟨rfl, t, ht, hx, hy', fun x k hlt hk => ?_⟩
  rw [hrow x k hlt hk, predictor_paeth, BitVec.toNat_add]
  rfl

/-! ### The edges of the raster (R22, R117) -/

/-- Being well formed is a matter of the pixels, not of the opcode (R76 to R78). -/
theorem wellFormed_congr {g : Geometry} {i j : Instr} (h : i.pixels = j.pixels) :
    WellFormed g i ↔ WellFormed g j := by
  rw [wellFormed_iff, wellFormed_iff, h]

/-- Instructions whose predictors agree on a triple of neighbours, lane by lane, compute the same pixel
from them. -/
theorem pixelOp_eq_of_predictor_eq {w : PaethWiden} {i j : Instr} {x a b c : Pixel}
    (h : ∀ k, predictor w (opcodeByte i) (lane a k) (lane b k) (lane c k) =
      predictor w (opcodeByte j) (lane a k) (lane b k) (lane c k)) :
    pixelOp w i x a b c = pixelOp w j x a b c := by
  have hi := keepsLength_pixelOp w i x a b c
  have hj := keepsLength_pixelOp w j x a b c
  refine List.ext_getElem (hi.trans hj.symm) fun k h1 h2 => ?_
  rw [← lane_of_lt h1, ← lane_of_lt h2, lane_pixelOp w i (hi ▸ h1), lane_pixelOp w j (hi ▸ h1), h]

/-- In row 0, instructions whose predictors agree where nothing is above do the same (R117). -/
theorem exec_eq_of_row0 {i j : Instr} {s : State} (hy : s.posY = 0) (hpix : i.pixels = j.pixels)
    (h : ∀ a, predictor s.params.paethWiden (opcodeByte i) a 0 0 =
      predictor s.params.paethWiden (opcodeByte j) a 0 0) : exec i s = exec j s := by
  have hfrom : reconFrom (pixelOp s.params.paethWiden i) 0 j.pixels s =
      reconFrom (pixelOp s.params.paethWiden j) 0 j.pixels s :=
    reconFrom_congr fun x enc s' hs' => reconPixel_row0 (hs'.trans hy) fun x a =>
      pixelOp_eq_of_predictor_eq fun k => by simpa only [lane_zeroPixel] using h (lane a k)
  rw [exec_eq_reconRow, exec_eq_reconRow, hpix, reconRow, reconRow, hfrom]

/-- At column 0 the byte is the encoded one plus the predictor with nothing to the left (R117). -/
theorem rasterByte_exec_col0 {i : Instr} {s : State} (hwf : WellFormed s.geometry i) {k : Nat}
    (h0 : 0 < i.pixels.length) (hk : k < s.geometry.bpp) :
    (reconRow (pixelOp s.params.paethWiden i) i.pixels s).rasterByte s.posY.toNat 0 k =
      lane i.pixels[0] k + predictor s.params.paethWiden (opcodeByte i) 0
        (if s.posY.toNat > 0 then s.rasterByte (s.posY.toNat - 1) 0 k else 0) 0 := by
  simpa using rasterByte_exec hwf h0 hk

/-- In row 0 an AVERAGE byte is the encoded one plus half the byte to its left (R117). -/
theorem rasterByte_average_row0 {s : State} {pix : List Pixel} (hwf : WellFormed s.geometry (.average pix))
    (hy : s.posY.toNat = 0) {x k : Nat} (hx : x < pix.length) (hpos : 0 < x) (hk : k < s.geometry.bpp) :
    (reconRow (pixelOp s.params.paethWiden (.average pix)) pix s).rasterByte 0 x k =
      lane pix[x] k + BitVec.ofNat 8
        (((reconRow (pixelOp s.params.paethWiden (.average pix)) pix s).rasterByte 0 (x - 1) k).toNat / 2) := by
  have h := rasterByte_exec hwf hx hk
  rw [hy, predictor_average, if_pos hpos, if_neg (lt_irrefl 0), avg_zero_right] at h
  exact h

/-- Settles O15: the predictors with nothing above, and with nothing to the left. -/
theorem predictorsAtTheEdges : Obligations.PredictorsAtTheEdges := by
  intro s pix hwf
  have hwf' : ∀ i : Instr, i.pixels = pix → WellFormed s.geometry i := fun i hi =>
    (wellFormed_congr hi).2 hwf
  refine ⟨fun hy => ⟨?_, ?_, _, exec_eq_reconRow _ s, fun x k hx hpos hk => ?_⟩,
    _, _, _, _, _, exec_eq_reconRow _ s, exec_eq_reconRow _ s, exec_eq_reconRow _ s, exec_eq_reconRow _ s,
    exec_eq_reconRow _ s, fun k h0 hk => ⟨?_, ?_, fun hy => ?_⟩⟩
  · exact exec_eq_of_row0 hy rfl fun a => paeth_left _ a
  · exact exec_eq_of_row0 hy rfl fun _ => rfl
  · exact rasterByte_average_row0 (hwf' (.average pix) rfl) (by rw [hy]; rfl) hx hpos hk
  · refine (rasterByte_exec_col0 (hwf' (.paeth pix) rfl) h0 hk).trans
      (.trans ?_ (rasterByte_exec_col0 (hwf' (.up pix) rfl) h0 hk).symm)
    rw [predictor_paeth, predictor_up, paeth_up]
    rfl
  · exact (rasterByte_exec_col0 (hwf' (.sub pix) rfl) h0 hk).trans
      (rasterByte_exec_col0 (hwf' (.none pix) rfl) h0 hk).symm
  · refine (rasterByte_exec_col0 (hwf' (.average pix) rfl) h0 hk).trans ?_
    rw [predictor_average, if_pos hy, avg_zero_left]
    rfl

/-! ### The forward filter undone (R119) -/

/-- Settles O16, by induction on the column: with the true byte to the left, the predictor is the one the
forward filter subtracted. -/
theorem reconstructionInvertsTheForwardFilter : Obligations.ReconstructionInvertsTheForwardFilter := by
  intro s i tr hwf hy habove henc
  obtain ⟨t, ht, -, -, hrow⟩ := exec_row i hwf hy
  refine ⟨t, ht, fun x k hx hk => ?_⟩
  have hw : i.pixels.length = s.geometry.width := (wellFormed_iff.1 hwf).1
  induction x using Nat.strong_induction_on with
  | _ x ih =>
    have hleft : (if x > 0 then t.rasterByte s.posY.toNat (x - 1) k else 0) =
        if x > 0 then tr s.posY.toNat (x - 1) k else 0 := ite_congr rfl
      (fun h => ih (x - 1) (by omega) (by omega)) fun _ => rfl
    have hup : (if s.posY.toNat > 0 then s.rasterByte (s.posY.toNat - 1) x k else 0) =
        if s.posY.toNat > 0 then tr (s.posY.toNat - 1) x k else 0 := ite_congr rfl
      (habove x k hx hk) fun _ => rfl
    have hupLeft : (if x > 0 ∧ s.posY.toNat > 0 then s.rasterByte (s.posY.toNat - 1) (x - 1) k else 0) =
        if x > 0 ∧ s.posY.toNat > 0 then tr (s.posY.toNat - 1) (x - 1) k else 0 := ite_congr rfl
      (fun h => habove (x - 1) k (by omega) hk h.2) fun _ => rfl
    rw [hrow x k (by omega) hk, henc x k (by omega) hk, hleft, hup, hupLeft]
    exact BitVec.sub_add_cancel _ _

end Sys2Proof.Machine
end

section
/-! Proofs of the statements on the Pixel model (spec 42_pixel_model.md): lane independence, and that two RGBA runs
alike but for alpha bytes stay so, OUT included. -/

namespace Sys2Proof.Machine

/-! ### Lane independence (R133) -/

section
variable {s t : State} {i j : Instr} {k : Nat} (ho : opcodeByte i = opcodeByte j)
  (hi : WellFormed s.geometry i) (hj : WellFormed s.geometry j) (hg : t.geometry = s.geometry)
  (hp : t.params = s.params) (hy : t.posY = s.posY) (hk : k < s.geometry.bpp)
  (henc : ∀ x (hi : x < i.pixels.length) (hj : x < j.pixels.length), lane i.pixels[x] k = lane j.pixels[x] k)
  (habove : ∀ x, x < s.geometry.width → 0 < s.posY.toNat →
    s.rasterByte (s.posY.toNat - 1) x k = t.rasterByte (s.posY.toNat - 1) x k)
include ho hi hj hg hp hy hk henc habove

/-- Rows of one opcode whose operands agree in lane `k` agree in lane `k`: each byte is the encoded one plus
the predictor over lane `k` of the neighbours, the left one by induction on the column. -/
theorem rasterByte_reconRow_lane_congr {x : Nat} (hx : x < s.geometry.width) :
    (reconRow (pixelOp s.params.paethWiden i) i.pixels s).rasterByte s.posY.toNat x k =
      (reconRow (pixelOp t.params.paethWiden j) j.pixels t).rasterByte s.posY.toNat x k := by
  rw [hp]
  induction x using Nat.strong_induction_on with
  | _ x ih =>
    have hxi : x < i.pixels.length := hx.trans_eq (wellFormed_iff.1 hi).1.symm
    have hxj : x < j.pixels.length := hx.trans_eq (wellFormed_iff.1 hj).1.symm
    have ht := rasterByte_exec (s := t) (hg ▸ hj) hxj (hg ▸ hk)
    rw [hy, hp] at ht
    rw [rasterByte_exec hi hxi hk, ht, henc x hxi hxj, ho]
    congr 2
    · exact ite_congr rfl (fun h => ih (x - 1) (by omega) (by omega)) fun _ => rfl
    · exact ite_congr rfl (habove x hx) fun _ => rfl
    · exact ite_congr rfl (fun h => habove (x - 1) (by omega) h.2) fun _ => rfl

end

/-- Settles O14: both executions are row steps. -/
theorem lanesNeverMix : Obligations.LanesNeverMix := by
  intro s t i j k ho hi hj hg hp hy hk henc habove
  exact ⟨_, _, exec_eq_reconRow i s, exec_eq_reconRow j t, fun x hx =>
    rasterByte_reconRow_lane_congr ho hi hj hg hp hy hk henc habove hx⟩

/-! ### The addresses of the alpha bytes in IN (R79, R132) -/

section
variable {g : Geometry} (hb : g.bpp = 4)
include hb

/-- The offset of an alpha byte in its record. -/
theorem isAlphaAddr_offset {y r : Nat} (hr : r < g.recLen) (h : isAlphaAddr g (y * g.recLen + r)) :
    ∃ x, r = 1 + x * 4 + 3 := by
  obtain ⟨y', x, hx, e⟩ := h
  rw [hb, Nat.add_assoc, Nat.add_assoc] at e
  have hr' : 1 + (x * 4 + 3) < g.recLen := by
    rw [Geometry.recLen, hb]
    omega
  have hmod := congrArg (· % g.recLen) e
  simp only [Nat.mul_add_mod_of_lt hr, Nat.mul_add_mod_of_lt hr'] at hmod
  exact ⟨x, by omega⟩

theorem not_isAlphaAddr_filterByte (y : Nat) : ¬ isAlphaAddr g (y * g.recLen) := by
  intro h
  obtain ⟨x, hx⟩ := isAlphaAddr_offset hb (r := 0) g.recLen_pos h
  omega

theorem not_isAlphaAddr_colour {y x k : Nat} (hx : x < g.width) (hk : k < 3) :
    ¬ isAlphaAddr g (y * g.recLen + 1 + x * g.bpp + k) := by
  intro h
  rw [hb, Nat.add_assoc, Nat.add_assoc] at h
  have hr : 1 + (x * 4 + k) < g.recLen := by
    rw [Geometry.recLen, hb]
    omega
  obtain ⟨x', hx'⟩ := isAlphaAddr_offset hb hr (by simpa only [Nat.add_assoc] using h)
  omega

end

/-! ### What keeps two states alike but for alpha bytes (R132) -/

namespace SameButAlpha

variable {s t : State} (h : SameButAlpha s t)
include h

theorem geometry : t.geometry = s.geometry := geometry_eq h.cfgWidth h.cfgHeight h.cfgColor

theorem bpp : s.geometry.bpp = 4 := by
  rw [Geometry.bpp, geometry_color, h.rgba]
  rfl

/-- The same bytes appended to OUT. -/
theorem appendOut (bs : List Byte) : SameButAlpha (s.appendOut bs) (t.appendOut bs) :=
  { h with
    outLen := congrArg (· + bs.length) h.outLen
    out := by rw [outBytes_appendOut, outBytes_appendOut, h.out] }

/-- The same phase entered, FT being compared already where the new phase compares it. -/
theorem withPhase (p : Phase) (hf : s.phase ≠ .fault)
    (hft : p = .load ∨ p = .recon → s.phase = .load ∨ s.phase = .recon) :
    SameButAlpha { s with phase := p } { t with phase := p } :=
  { h with
    phase := rfl
    ft := fun hp => h.ft (hft hp)
    raster := fun _ => h.raster hf }

/-- The same fault entered: after it nothing is said of FT and RASTER (R170). -/
theorem withFault (code value : Byte) {expected expected' actual actual' : Word} (he : expected' = expected)
    (ha : actual' = actual) :
    SameButAlpha
      { s with
        faultCode := code, faultValue := value, faultExpected := expected, faultActual := actual, phase := .fault }
      { t with
        faultCode := code, faultValue := value, faultExpected := expected', faultActual := actual'
        phase := .fault } :=
  { h with
    phase := rfl
    faultCode := rfl
    faultValue := rfl
    faultExpected := he
    faultActual := ha
    ft := fun hp => by simp at hp
    raster := fun hp => absurd rfl hp }

/-- The same exception taken (R169). -/
theorem raise (e : Exn) : SameButAlpha (raise e s) (raise e t) := by
  cases e with
  | truncatedInput => exact h.withFault 1 0 (by rw [h.geometry]) h.inLen
  | unsupportedFilterType v => exact h.withFault 2 v rfl rfl

section
variable (hp : s.phase = .load) (hs : ¬ s.inPos.toNat + s.geometry.recLen > s.inLen.toNat)
  (ht : ¬ t.inPos.toNat + t.geometry.recLen > t.inLen.toNat)
  (hin : s.inPos.toNat = s.posY.toNat * s.geometry.recLen)
include hp hs ht hin

/-- The filter-type byte of a fetched record stands at no alpha address. -/
theorem loadRecord_ft (y : Nat) : (loadRecord t).readByte .ft y = (loadRecord s).readByte .ft y := by
  rcases eq_or_ne y s.posY.toNat with rfl | hy
  · have hsame := loadRecord_ft_same ht
    rw [h.posY, h.inPos, hin] at hsame
    rw [hsame, loadRecord_ft_same hs, hin]
    exact h.input _ (not_isAlphaAddr_filterByte h.bpp _)
  · rw [loadRecord_ft_other hs hy, loadRecord_ft_other ht (h.posY ▸ hy)]
    exact h.ft (.inl hp) y

/-- The colour bytes of a fetched record stand at no alpha address. -/
theorem loadRecord_raster {y x k : Nat} (hx : x < s.geometry.width) (hk : k < 3) :
    (loadRecord t).rasterByte y x k = (loadRecord s).rasterByte y x k := by
  have hxt : x < t.geometry.width := h.geometry ▸ hx
  have hks : k < s.geometry.bpp := h.bpp ▸ Nat.lt_succ_of_lt hk
  have hkt : k < t.geometry.bpp := h.geometry ▸ hks
  rcases eq_or_ne y s.posY.toNat with rfl | hy
  · have hsame := loadRecord_rasterByte ht hxt hkt
    rw [h.posY, h.inPos, h.geometry, hin] at hsame
    rw [hsame, loadRecord_rasterByte hs hx hks, hin]
    exact h.input _ (not_isAlphaAddr_colour h.bpp hx hk)
  · rw [loadRecord_rasterByte_other hs hx hks hy, loadRecord_rasterByte_other ht hxt hkt (h.posY ▸ hy)]
    exact h.raster (by simp [hp]) y x k hx hk

/-- One more record fetched (R96). -/
theorem loadRecord : SameButAlpha (loadRecord s) (loadRecord t) := by
  have hft := h.loadRecord_ft hp hs ht hin
  have hraster := fun y x k => h.loadRecord_raster hp hs ht hin (y := y) (x := x) (k := k)
  rw [loadRecord_frame hs, loadRecord_frame ht] at hft hraster ⊢
  exact { h with
    inPos := by rw [h.inPos, h.geometry]
    posY := congrArg (· + 1) h.posY
    ft := fun _ => hft
    raster := fun _ => hraster }

end

section
variable {i j : Instr} (hp : s.phase = .recon) (ho : opcodeByte i = opcodeByte j)
  (hi : i.pixels = s.readRow s.posY.toNat) (hj : j.pixels = t.readRow t.posY.toNat)
include hp ho hi hj

/-- The colour lanes of a reconstructed row do not depend on the alpha lane (R133). -/
theorem reconRow_raster {y x k : Nat} (hx : x < s.geometry.width) (hk : k < 3) :
    (reconRow (pixelOp t.params.paethWiden j) j.pixels t).rasterByte y x k =
      (reconRow (pixelOp s.params.paethWiden i) i.pixels s).rasterByte y x k := by
  have hold : ∀ y x, x < s.geometry.width → s.rasterByte y x k = t.rasterByte y x k := fun y x hx =>
    (h.raster (by simp [hp]) y x k hx hk).symm
  have hks : k < s.geometry.bpp := h.bpp ▸ Nat.lt_succ_of_lt hk
  have hkt : k < t.geometry.bpp := h.geometry ▸ hks
  rcases eq_or_ne y s.posY.toNat with rfl | hy
  · refine (rasterByte_reconRow_lane_congr ho (wellFormed_of_pixels_eq_readRow hi)
      (h.geometry ▸ wellFormed_of_pixels_eq_readRow hj) h.geometry h.params h.posY hks (fun x hxi _ => ?_)
      (fun x hx _ => hold _ x hx) hx).symm
    rw [hi, readRow_length] at hxi
    simp only [hi, hj, readRow_getElem, lane_readPixel hks, lane_readPixel hkt, h.posY]
    exact hold _ x hxi
  · rw [rasterByte_reconRow_other (keepsLength_pixelOp _ i) (by rw [hi, readRow_length]) hx hks hy,
      rasterByte_reconRow_other (keepsLength_pixelOp _ j) (by rw [hj, readRow_length]) (h.geometry ▸ hx) hkt
        (h.posY ▸ hy), hold y x hx]

/-- One more row reconstructed by one opcode (R106). -/
theorem reconRow : SameButAlpha (reconRow (pixelOp s.params.paethWiden i) i.pixels s)
    (reconRow (pixelOp t.params.paethWiden j) j.pixels t) := by
  have hraster := fun y x k => h.reconRow_raster hp ho hi hj (y := y) (x := x) (k := k)
  obtain ⟨_, _, _, _, _, es⟩ := reconRow_frame (pixelOp s.params.paethWiden i) i.pixels s
  obtain ⟨_, _, _, _, _, et⟩ := reconRow_frame (pixelOp t.params.paethWiden j) j.pixels t
  rw [es, et] at hraster ⊢
  exact { h with
    posY := congrArg (· + 1) h.posY
    posX := rfl
    raster := fun _ => hraster }

end

/-- The filter-type byte a RECON step reads (R106). -/
theorem ft_posY (hp : s.phase = .recon) : t.readByte .ft t.posY.toNat = s.readByte .ft s.posY.toNat := by
  rw [h.posY]
  exact h.ft (.inr hp) _

/-- The end of LOAD (R99). -/
theorem loadEnd (hp : s.phase = .load) : SameButAlpha (loadEnd s) (loadEnd t) :=
  { h.withPhase .recon (by simp [hp]) fun _ => .inl hp with
    posY := rfl
    posX := rfl }

/-- The end of RECON (R118). -/
theorem reconEnd (hp : s.phase = .recon) : SameButAlpha (reconEnd s) (reconEnd t) :=
  { h.withPhase .emit (by simp [hp]) (by simp) with
    posY := h.cfgHeight
    posX := rfl }

/-- The end of EMIT (R149). -/
theorem emitEnd (hp : s.phase = .emit) : SameButAlpha (emitEnd s) (emitEnd t) :=
  { h.withPhase .done (by simp [hp]) (by simp) with
    posY := rfl
    posX := rfl }

/-- EMIT reads no alpha byte (R145). -/
theorem bgr_readPixel (hf : s.phase ≠ .fault) {y x : Nat} (hx : x < s.geometry.width) :
    bgr (t.readPixel y x) = bgr (s.readPixel y x) := by
  have hold := h.raster hf y x
  rw [Machine.bgr_readPixel, Machine.bgr_readPixel, hold 2 hx (by decide), hold 1 hx (by decide),
    hold 0 hx (by decide)]

theorem emitHeader : SameButAlpha (emitHeader s) (emitHeader t) := by
  rw [Machine.emitHeader, Machine.emitHeader, h.geometry]
  exact h.appendOut _

theorem emitPixel (hf : s.phase ≠ .fault) (hx : s.posX.toNat < s.geometry.width) :
    SameButAlpha (emitPixel s) (emitPixel t) := by
  have hpix : bgr (t.readPixel (t.posY.toNat - 1) t.posX.toNat) =
      bgr (s.readPixel (s.posY.toNat - 1) s.posX.toNat) := by
    rw [h.posY, h.posX]
    exact h.bgr_readPixel hf hx
  rw [Machine.emitPixel, Machine.emitPixel, hpix]
  exact { h.appendOut _ with posX := congrArg (· + 1) h.posX }

theorem emitPad : SameButAlpha (emitPad s) (emitPad t) := by
  rw [Machine.emitPad, Machine.emitPad, h.geometry, h.params]
  exact { h.appendOut _ with
    posY := congrArg (· - 1) h.posY
    posX := rfl }

end SameButAlpha

/-! ### Every step of a run (R132) -/

/-- The rule enabled in a state is enabled in one alike but for alpha bytes, and keeps the two alike. -/
theorem SequencerRule.sameButAlpha {s s' t : State} (hr : SequencerRule s s') (hpos : PositionOk s)
    (h : SameButAlpha s t) : ∃ t', SequencerRule t t' ∧ SameButAlpha s' t' := by
  have hg := h.geometry
  cases hr with
  | fetch hp hy hlen =>
    have ht : ¬ t.inPos.toNat + t.geometry.recLen > t.inLen.toNat := by rwa [h.inPos, hg, h.inLen]
    simp only [PositionOk, hp] at hpos
    obtain ⟨-, -, -, hin, -⟩ := hpos
    exact ⟨_, .fetch (h.phase.trans hp) (by rwa [h.posY, hg]) ht, h.loadRecord hp hlen ht hin⟩
  | truncated hp hy hlen =>
    exact ⟨_, .truncated (h.phase.trans hp) (by rwa [h.posY, hg]) (by rwa [h.inPos, hg, h.inLen]), h.raise _⟩
  | loadEnd hp hy =>
    exact ⟨_, .loadEnd (h.phase.trans hp) (by rwa [h.posY, hg]), h.loadEnd hp⟩
  | execute hp hy i ho hi =>
    obtain ⟨j, hoj, hj⟩ := exists_instr_of_opcode_le (opcodeByte_toNat_le i) (t.readRow t.posY.toNat)
    exact ⟨_, .execute (h.phase.trans hp) (by rwa [h.posY, hg]) j (by rw [hoj, ho, h.ft_posY hp]) hj,
      h.reconRow hp hoj.symm hi hj⟩
  | badFilter hp hy hbad =>
    rw [← h.ft_posY hp] at hbad ⊢
    exact ⟨_, .badFilter (h.phase.trans hp) (by rwa [h.posY, hg]) hbad, h.raise _⟩
  | reconEnd hp hy =>
    exact ⟨_, .reconEnd (h.phase.trans hp) (by rwa [h.posY, hg]), h.reconEnd hp⟩
  | emitHeader hp h0 =>
    exact ⟨_, .emitHeader (h.phase.trans hp) (by rwa [h.outLen]), h.emitHeader⟩
  | emitEnd hp h54 hy =>
    exact ⟨_, .emitEnd (h.phase.trans hp) (by rwa [h.outLen]) (by rwa [h.posY]), h.emitEnd hp⟩
  | emitPixel hp h54 hy hx =>
    exact ⟨_, .emitPixel (h.phase.trans hp) (by rwa [h.outLen]) (by rwa [h.posY]) (by rwa [h.posX, hg]),
      h.emitPixel (by simp [hp]) hx⟩
  | emitPad hp h54 hy hx =>
    exact ⟨_, .emitPad (h.phase.trans hp) (by rwa [h.outLen]) (by rwa [h.posY]) (by rwa [h.posX, hg]), h.emitPad⟩

/-- Settles O52: while BUSY a rule of the sequencer is enabled, and it is the same one in both states. -/
theorem alphaNeverReachesTheOutput : Obligations.AlphaNeverReachesTheOutput := by
  intro s t hi h hb hq
  obtain ⟨s', hs⟩ := exists_rule_of_busy hi hb
  obtain ⟨t', ht, h'⟩ := hs.sameButAlpha hi.position h
  refine ⟨s', t', ?_, ?_, h', h'.out⟩
  · rw [step_of_nil hq]
    exact hs.sequencerStep
  · rw [step_of_nil (h.hostQueue.trans hq)]
    exact ht.sequencerStep

end Sys2Proof.Machine
end

section
/-! Proofs of the statements on the output side (spec 43_reformat.md): the header, the pixels and the padding of EMIT,
its end, and the end of every run. -/

namespace Sys2Proof

/-! ### The padding (R146, R147) -/

theorem Geometry.padRowBytes_outputDepth (g : Geometry) : g.padRowBytes .outputDepth = 3 * g.width :=
  g.outRowBytes_eq

theorem Geometry.padRowBytes_sourceDepth (g : Geometry) : g.padRowBytes .sourceDepth = g.width * g.bpp := by
  rw [Geometry.padRowBytes, Geometry.bitsPerPixel, Nat.mul_left_comm]
  exact Nat.mul_div_cancel_left _ (by decide)

/-- Three bytes for each pixel of a row, and `W mod 4` more, are a multiple of four. -/
theorem Geometry.pad_eq_mod_four {g : Geometry} {r : PadRule} (h : g.padRowBytes r = 3 * g.width) :
    g.pad r = g.width % 4 := by
  rw [Geometry.pad, h]
  omega

/-- Settles O28: a row is `3 * W` bytes long, but for the source row of RGBA, which is `4 * W`. -/
theorem paddingMakesRowsMultiplesOfFour : Obligations.PaddingMakesRowsMultiplesOfFour := by
  intro g
  have hpad := Geometry.pad_eq_mod_four g.padRowBytes_outputDepth
  have hsource := g.padRowBytes_sourceDepth
  refine ⟨hpad, by omega, fun hc => Geometry.pad_eq_mod_four ?_, fun hc => ?_⟩
  · rw [hsource, Geometry.bpp, hc, Nat.mul_comm]
    rfl
  · have hrow : g.padRowBytes .sourceDepth = g.width * 4 := by rw [hsource, Geometry.bpp, hc]; rfl
    rw [Geometry.pad, hrow, Nat.mul_mod_left]

namespace Machine

/-! ### The rules of EMIT (R149) -/

/-- With no host operation pending a step is the rule of the sequencer that is enabled. -/
theorem step_of_rule {s t : State} (h : SequencerRule s t) (hq : s.hostQueue = []) : step s = .next t :=
  (step_of_nil hq).trans h.sequencerStep

theorem outBytes_eq_nil {s : State} (h : s.outLen = 0) : s.outBytes = [] :=
  List.eq_nil_of_length_eq_zero ((outBytes_length s).trans h)

/-- The header with its two sizes worked out and its constant fields as bytes (R141, R142). -/
theorem refHeader_eq (g : Geometry) :
    refHeader g =
      [0x42, 0x4D] ++ le32 (54 + 3 * (g.height * g.width)) ++ [0x00, 0x00, 0x00, 0x00] ++ [0x36, 0x00, 0x00, 0x00] ++
      [0x28, 0x00, 0x00, 0x00] ++ le32 g.width ++ le32 g.height ++ [0x01, 0x00] ++ [0x18, 0x00] ++
      [0x00, 0x00, 0x00, 0x00] ++ le32 (3 * (g.height * g.width)) ++ List.replicate 16 0x00 := by
  rw [refHeader, fileHeader, infoHeader, Geometry.fileSizeField, Geometry.imageDataSize_eq]
  rfl

/-- Settles O24: OUT is empty before the header. -/
theorem emitWritesTheHeaderFirst : Obligations.EmitWritesTheHeaderFirst := by
  intro s hq hp h
  refine ⟨emitHeader s, step_of_rule (.emitHeader hp h) hq, ?_, rfl, ?_⟩
  · show s.outLen + 54 = 54
    rw [h]
  · calc (emitHeader s).outBytes
        = s.outBytes ++ refHeader s.geometry := outBytes_appendOut ..
      _ = _ := by rw [outBytes_eq_nil h, List.nil_append, refHeader_eq]

/-- Settles O26: the step is EMIT_PIX. -/
theorem emitWritesBlueGreenRed : Obligations.EmitWritesBlueGreenRed := by
  intro s hq hp h hy hx
  refine ⟨emitPixel s, step_of_rule (.emitPixel hp h hy hx) hq, ?_, posX_succ hx, rfl⟩
  calc (emitPixel s).outBytes
      = s.outBytes ++ bgr (s.readPixel (s.posY.toNat - 1) s.posX.toNat) := outBytes_appendOut ..
    _ = _ := by rw [bgr_readPixel]

/-- Settles O27: the step is EMIT_PAD, and the row length is the one `PAD_RULE` names. -/
theorem emitPadsTheRow : Obligations.EmitPadsTheRow := by
  intro s hq hp h hy hx rowBytes pad
  have hrow : s.geometry.padRowBytes s.params.padRule = rowBytes := by
    cases hr : s.params.padRule with
    | outputDepth => simp only [rowBytes, hr, Geometry.padRowBytes_outputDepth]
    | sourceDepth => simp only [rowBytes, hr, Geometry.padRowBytes_sourceDepth]
  have hpad : s.geometry.pad s.params.padRule = pad := by rw [Geometry.pad, hrow]
  refine ⟨emitPad s, step_of_rule (.emitPad hp h hy hx) hq, ?_, ?_, ?_⟩
  · rw [← hpad]
    exact outBytes_appendOut ..
  · rw [emitPad_posY, posY_pred hy]
    omega
  · rw [← hpad, ← emitPad_outLen]
    rfl

/-- Settles O29: the step is EMIT_END. -/
theorem emitEndsInDone : Obligations.EmitEndsInDone := by
  intro s hq hp h hy
  exact step_of_rule (.emitEnd hp h (by rw [hy]; rfl)) hq

/-! ### A run makes progress (R197, R198) -/

theorem stepsLeft_emit {s : State} (hp : s.phase = .emit) (h : s.outLen ≠ 0) :
    stepsLeft s = s.posY.toNat * (s.geometry.width + 1) - s.posX.toNat + 1 := by
  simp only [stepsLeft, hp, if_neg h, Nat.zero_add]

theorem toNat_zero_word : (0 : Word).toNat = 0 := rfl

/-- A rule of the sequencer enters FAULT or leaves exactly one step less to DONE. -/
theorem stepsLeft_of_rule {s t : State} (h : SequencerRule s t) (hpos : PositionOk s) :
    t.phase = .fault ∨ stepsLeft t + 1 = stepsLeft s := by
  cases h with
  | truncated | badFilter => exact .inl rfl
  | fetch hp hy h =>
    simp only [stepsLeft, hp, loadRecord_phase h, loadRecord_geometry h, loadRecord_posY h, posY_succ hy]
    omega
  | loadEnd hp hy =>
    simp only [stepsLeft, hp, hy, loadEnd_phase, loadEnd_geometry, loadEnd_posY, toNat_zero_word]
    omega
  | execute hp hy i =>
    simp only [stepsLeft, hp, reconRow_phase, reconRow_geometry, reconRow_posY, posY_succ hy]
    omega
  | reconEnd hp hy =>
    simp only [PositionOk, hp] at hpos
    obtain ⟨-, -, -, -, -, ho, -⟩ := hpos
    simp only [stepsLeft, hp, hy, reconEnd_phase, reconEnd_geometry, reconEnd_posY, reconEnd_posX, reconEnd_outLen,
      ho, if_true, ← geometry_height, toNat_zero_word]
    omega
  | emitHeader hp h =>
    rw [stepsLeft_emit (s := emitHeader s) hp (Nat.succ_ne_zero _)]
    simp only [stepsLeft, hp, if_pos h, emitHeader_geometry, emitHeader_posY, emitHeader_posX]
    omega
  | emitEnd hp h hy =>
    rw [stepsLeft_emit hp (by omega), hy, Nat.zero_mul, Nat.zero_sub]
    exact .inr rfl
  | emitPixel hp h hy hx =>
    have hrow : s.geometry.width + 1 ≤ s.posY.toNat * (s.geometry.width + 1) := Nat.le_mul_of_pos_left _ hy
    rw [stepsLeft_emit hp (by omega), stepsLeft_emit (s := emitPixel s) hp (Nat.succ_ne_zero _), emitPixel_geometry,
      emitPixel_posY, emitPixel_posX, posX_succ hx]
    omega
  | emitPad hp h hy hx =>
    obtain ⟨n, hn⟩ : ∃ n, s.posY.toNat = n + 1 := ⟨s.posY.toNat - 1, by omega⟩
    have ho : (emitPad s).outLen ≠ 0 := by rw [emitPad_outLen]; omega
    rw [stepsLeft_emit hp (by omega), stepsLeft_emit (s := emitPad s) hp ho, emitPad_geometry, emitPad_posY,
      emitPad_posX, posY_pred hy, hx, hn, Nat.add_sub_cancel, Nat.add_mul, Nat.one_mul, toNat_zero_word]
    omega

/-! ### The end of a run (R140, R148, R161, R162, R167) -/

/-- `t` is a state of the run that began in `s`: what a run reads and never writes is the same. -/
structure SameRun (s t : State) : Prop where
  params : t.params = s.params
  geometry : t.geometry = s.geometry
  inLen : t.inLen = s.inLen
  inputBytes : t.inputBytes = s.inputBytes

theorem SameRun.trans {s t u : State} (h : SameRun s t) (h' : SameRun t u) : SameRun s u :=
  ⟨h'.params.trans h.params, h'.geometry.trans h.geometry, h'.inLen.trans h.inLen, h'.inputBytes.trans h.inputBytes⟩

theorem SequencerKeeps.sameRun {s t : State} (k : SequencerKeeps s t) : SameRun s t :=
  ⟨k.params, k.geometry, k.inLen, k.inputBytes⟩

theorem SameRun.filtersLegal {s t : State} (h : SameRun s t) {n : Nat} : FiltersLegal t n ↔ FiltersLegal s n := by
  rw [FiltersLegal, FiltersLegal, h.geometry, h.inputBytes]

/-- After a rule of the sequencer the run goes on or has ended (R26). -/
theorem SequencerRule.busy_or_ended {s t : State} (h : SequencerRule s t) : t.busy = true ∨ Ended t := by
  cases hp : t.phase with
  | idle => exact absurd hp h.phase_ne_idle
  | load | recon | emit => exact .inl (busy_iff.2 (by simp [hp]))
  | done => exact .inr (.inl hp)
  | fault => exact .inr (.inr hp)

/-- A run left to itself ends, in a state that meets the invariant and follows the reference (R198). -/
theorem exists_run_ended {s : State} (hq : s.hostQueue = []) (hi : Inv s) (hf : FollowsReference s)
    (hb : s.busy = true) :
    ∃ n t, Host.Core.run core n s = .next t ∧ Ended t ∧ Inv t ∧ FollowsReference t ∧ SameRun s t := by
  induction hn : stepsLeft s using Nat.strong_induction_on generalizing s with
  | _ n ih =>
    obtain ⟨t, h⟩ := exists_rule_of_busy hi hb
    have k := h.keeps
    have hit := h.inv hi
    have hft := h.followsReference hi.position hf
    have hstep : core.step s = .next t := step_of_rule h hq
    rcases h.busy_or_ended with hbt | he
    · have hless : stepsLeft t < n := by
        rcases stepsLeft_of_rule h hi.position with hp | hp
        · simp [busy_iff, hp] at hbt
        · omega
      obtain ⟨m, u, hrun, he, hiu, hfu, hsame⟩ := ih _ hless (k.hostQueue.trans hq) hit hft hbt rfl
      exact ⟨m + 1, u, (run_succ hstep m).trans hrun, he, hiu, hfu, k.sameRun.trans hsame⟩
    · exact ⟨1, t, run_succ hstep 0, he, hit, hft, k.sameRun⟩

section
variable {s t : State} (h : SameRun s t) (hi : Inv t) (hf : FollowsReference t)
include h hi hf

/-- A run that has ended in DONE had all its input, with legal filter-type bytes, and wrote the reference
BMP (R148, R189). -/
theorem outcome_of_done (hp : t.phase = .done) :
    s.geometry.expectedLen ≤ s.inLen.toNat ∧ FiltersLegal s s.geometry.height ∧ t.faultCode = 0 ∧
      t.outLen = s.geometry.outTotal s.params.padRule ∧ t.outBytes = refBmp s.params s.geometry s.inputBytes := by
  rw [← h.filtersLegal, ← h.geometry, ← h.params, ← h.inLen, ← h.inputBytes]
  have hpos := hi.position
  simp only [PositionOk, hp] at hpos
  obtain ⟨-, -, -, hin, hle, hout, hcode, -⟩ := hpos
  simp only [FollowsReference, hp] at hf
  obtain ⟨hlegal, -, hbytes⟩ := hf
  exact ⟨hin ▸ hle, hlegal, hcode, hout, hbytes⟩

/-- A run that has ended in FAULT wrote nothing, and had too short an input, or all of it and POS_Y at the
first row with an illegal filter-type byte (R161, R162, R167). -/
theorem outcome_of_fault (hp : t.phase = .fault) :
    t.outBytes = [] ∧
      (s.inLen.toNat < s.geometry.expectedLen ∧ t.faultCode = 1 ∧
          t.faultExpected.toNat = s.geometry.expectedLen ∧ t.faultActual = s.inLen ∨
        s.geometry.expectedLen ≤ s.inLen.toNat ∧ t.faultCode = 2 ∧ t.posY.toNat < s.geometry.height ∧
          FiltersLegal s t.posY.toNat ∧ t.faultValue = filterByte s.geometry s.inputBytes t.posY.toNat ∧
          4 < t.faultValue.toNat) := by
  rw [← h.filtersLegal, ← h.geometry, ← h.inLen, ← h.inputBytes]
  have hpos := hi.position
  simp only [PositionOk, hp] at hpos
  obtain ⟨-, hy, -, hle, hout, hfault⟩ := hpos
  refine ⟨outBytes_eq_nil hout, ?_⟩
  rcases hfault with ⟨hcode, -, hexp, hact, hlt⟩ | ⟨hcode, hbad, -, -, hin⟩
  · rw [hexp, hact] at hlt
    exact .inl ⟨hlt, hcode, hexp, hact⟩
  · simp only [FollowsReference, hp] at hf
    obtain ⟨hvalue, hlegal⟩ := hf hcode
    exact .inr ⟨hin ▸ hle, hcode, hy, hlegal, hvalue, hbad⟩

end

/-- There is one first row with an illegal filter-type byte. -/
theorem first_illegal_unique {s : State} {y y' : Nat} (h : FiltersLegal s y) (h' : FiltersLegal s y')
    (hbad : 4 < (filterByte s.geometry s.inputBytes y).toNat)
    (hbad' : 4 < (filterByte s.geometry s.inputBytes y').toNat) : y = y' := by
  refine le_antisymm (not_lt.1 fun hlt => ?_) (not_lt.1 fun hlt => ?_)
  · exact absurd (h y' hlt) (not_le.2 hbad')
  · exact absurd (h' y hlt) (not_le.2 hbad)

/-- Settles O51: START leads to LOAD, the run from there ends, and each of the three ends, DONE and the two
faults, is reached from the input of one clause only. -/
theorem everyRunEndsAsTheReferenceSays : Obligations.EveryRunEndsAsTheReferenceSays := by
  intro s v hi hp hl hq h1 h0
  obtain ⟨s', hstep, rfl, hf⟩ := (startIsAcceptedInIdleOnly s v [] hq h1 h0).1 hp hl
  have hi' := (inv_started hp hl hi).withQueue []
  obtain ⟨n, t, hrun, he, hit, hft, hstarted⟩ := exists_run_ended rfl hi' hf (busy_iff.2 (.inl rfl))
  have hsame : SameRun s t := ⟨hstarted.params, hstarted.geometry, hstarted.inLen, hstarted.inputBytes⟩
  refine ⟨n + 1, t, (run_succ hstep n).trans hrun, ?_⟩
  rcases he with hpt | hpt
  · obtain ⟨hlen, hlegal, hdone⟩ := outcome_of_done hsame hit hft hpt
    exact ⟨fun h => absurd hlen (not_le.2 h), fun _ y hy _ hbad => absurd (hlegal y hy) (not_le.2 hbad),
      fun _ _ => ⟨hpt, hdone⟩⟩
  · obtain ⟨hout, ⟨hlen, hcode, hexp, hact⟩ | ⟨hlen, hcode, hy, hlegal, hvalue, hbad⟩⟩ :=
      outcome_of_fault hsame hit hft hpt
    · exact ⟨fun _ => ⟨hpt, hcode, hexp, hact, hout⟩, fun h => absurd hlen (not_lt.2 h),
        fun h => absurd hlen (not_lt.2 h)⟩
    · have hbad' := hvalue ▸ hbad
      refine ⟨fun h => absurd hlen (not_le.2 h), fun _ y _ hl hb => ?_, fun _ hall => ?_⟩
      · obtain rfl := first_illegal_unique hlegal hl hbad' hb
        exact ⟨hpt, hcode, hvalue, rfl, hout⟩
      · exact absurd (hall _ hy) (not_le.2 hbad')

end Machine

end Sys2Proof
end

section
/-! Proofs of the statements on the ends of a run (spec 60_exceptions.md): IDLE, DONE and FAULT have no step of the
sequencer, and RESET alone leaves DONE and FAULT. -/

namespace Sys2Proof.Machine

/-! ### The phases without a step (R171, R186, R189) -/

theorem sequencerStep_of_idle {s : State} (hp : s.phase = .idle) : sequencerStep s = .fault .noStepInIdle := by
  rw [sequencerStep, hp]

theorem sequencerStep_of_done {s : State} (hp : s.phase = .done) : sequencerStep s = .fault .noStepInDone := by
  rw [sequencerStep, hp]

theorem sequencerStep_of_fault {s : State} (hp : s.phase = .fault) : sequencerStep s = .fault .noStepInFault := by
  rw [sequencerStep, hp]

/-- Settles O44: with no host operation pending the step is the sequencer's. -/
theorem noStepOutsideARun : Obligations.NoStepOutsideARun := by
  intro s hq
  rw [step_of_nil hq]
  exact ⟨sequencerStep_of_idle, sequencerStep_of_done, sequencerStep_of_fault⟩

/-! ### DONE and FAULT (R171, R189) -/

theorem Ended.phase_ne_idle {s : State} (h : Ended s) : s.phase ≠ .idle := by
  rcases h with hp | hp <;> simp [hp]

theorem Ended.not_busy {s : State} (h : Ended s) : ¬ s.busy = true := by
  rw [busy_iff]
  rcases h with hp | hp <;> simp [hp]

/-- A step in DONE or FAULT that is no RESET changes the queue and IN alone: the sequencer, which would need
BUSY, does not move. -/
theorem step_cases_ended {s t : State} (he : Ended s) (hr : ¬ ResetPending s) (h : step s = .next t) :
    ∃ rest inp, t = { s with hostQueue := rest, input := inp } := by
  obtain ⟨rest, rfl | ⟨bytes, -, rfl⟩ | ⟨hb, -⟩⟩ := step_cases_in_run he.phase_ne_idle hr h
  · exact ⟨rest, s.input, rfl⟩
  · exact ⟨rest, _, rfl⟩
  · exact absurd hb he.not_busy

/-- Settles O43: what is listed is read neither from the queue nor from IN. -/
theorem onlyResetLeavesTheEnd : Obligations.OnlyResetLeavesTheEnd := by
  intro s t he hr h
  obtain ⟨rest, inp, rfl⟩ := step_cases_ended he hr h
  exact ⟨rfl, rfl, rfl, rfl, rfl, rfl, rfl, rfl, rfl, rfl, rfl, rfl⟩

end Sys2Proof.Machine
end

section
/-! Proof of the statement on the progress of a run (spec 70_reset_and_hazards.md). -/

namespace Sys2Proof.Machine

/-- Settles O49: while BUSY the invariant enables a rule of the sequencer, and the step is that rule. -/
theorem everyRunStepMakesProgress : Obligations.EveryRunStepMakesProgress := by
  intro s hi hb hq
  obtain ⟨t, h⟩ := exists_rule_of_busy hi hb
  exact ⟨t, step_of_rule h hq, stepsLeft_of_rule h hi.position⟩

end Sys2Proof.Machine
end
